-- ==== Sys2Proof/Word.lean ====
section
/-! DEFINITION. The values of the datapath, each at the one width 00_scope.md rule R9 gives it, and the
two bit numberings of rule R11. Every value is an unsigned bit vector (rule R12); XOR is only written
between two values of one of these types, so operands of unequal width cannot be written (rules R13, R287). -/

namespace Sys2Proof

/-- One byte of a source byte sequence. -/
abbrev Byte := BitVec 8

/-- A key, a plaintext or ciphertext block, or a result: 8 bytes on a 64-bit port (rules R9, R17). -/
abbrev Block := BitVec 64

/-- The key after the key-reduction selection: 56 bits (rule R9). -/
abbrev ReducedKey := BitVec 56

/-- One half of the reduced key: 28 bits (rule R9). -/
abbrev KeyHalf := BitVec 28

/-- One subkey: 48 bits (rule R9). -/
abbrev Subkey := BitVec 48

/-- One Feistel half: 32 bits (rule R9). -/
abbrev Half := BitVec 32

/-- The 8-bit command word (30_encoding.md rule R102). -/
abbrev CmdWord := BitVec 8

/-- The 4-bit round counter's values (10_state.md rule R37). -/
abbrev Round := BitVec 4

/-- The subkey file: sixteen subkeys (10_state.md rule R32). -/
abbrev SubkeyFile := Vector Subkey 16

/-- `pos_n(v, p)` of rule R11: the bit at 0-based position `p` counted from the most significant bit,
that is `v[n-1-p]`. -/
abbrev pos {n : Nat} (v : BitVec n) (p : Nat) : Bool := v.getMsbD p

end Sys2Proof
end

