-- ==== Sys2Proof/Config.lean ====
section
/-! DEFINITION. What this hardware fixes where the source leaves a parameter open (00_scope.md rule R10),
and the values the model names for the registers a reset does not write (70_reset_and_hazards.md rule
R320; 93_implementation_defined.md U1). No parameter remains open and no value is free: rule R10. -/

namespace Sys2Proof.Config

/-- Edges at which an accepted command steps after its accepting edge: 16 (rules R9, R255, R333). -/
def stepsPerCommand : Nat := 16

/-- Edges a command occupies, its accepting edge included: 17 (rules R10, R333). -/
def edgesPerCommand : Nat := 17

/-- `KEY` in `State.reset`. DESIGN CHOICE, unsafe (notes/assumptions/1.md): the spec leaves it unspecified. -/
def unresetKey : Block := 0

/-- Every `SK[k]` in `State.reset`. DESIGN CHOICE, unsafe (notes/assumptions/1.md). -/
def unresetSubkey : Subkey := 0

/-- `C` and `D` in `State.reset`. DESIGN CHOICE, unsafe (notes/assumptions/1.md). -/
def unresetKeyHalf : KeyHalf := 0

/-- `L` and `R` in `State.reset`. DESIGN CHOICE, unsafe (notes/assumptions/1.md). -/
def unresetHalf : Half := 0

end Sys2Proof.Config
end

