-- ==== Sys2Proof/Syntax.lean ====
section
/-! DEFINITION. The commands of the engine: one constructor per row of the opcode table, each with its one
64-bit operand (30_encoding.md rules R102 to R104). An illegal command word is no command: the decoder
rejects it by name (Decode.lean). -/

namespace Sys2Proof

/-- The three commands. Each carries the whole of `cmd_data` (rule R103). -/
inductive Instr where
  /-- `LDKEY`, command word `0x01`: load a key and compute its sixteen subkeys (rule R180). -/
  | ldkey (key : Block)
  /-- `ENC`, command word `0x02`: encrypt one block (rule R250). -/
  | enc (block : Block)
  /-- `DEC`, command word `0x03`: decrypt one block (rule R251). -/
  | dec (block : Block)
  deriving DecidableEq, Repr

end Sys2Proof
end

