-- ==== Sys2Proof/Machine/State.lean ====
section
/-! DEFINITION. The machine's state: the thirteen registers of 10_state.md rule R30 and nothing else of the engine's,
and beside them the host that drives its input ports (30_encoding.md rules R100, R107, R108). Plain data. -/

namespace Sys2Proof.Machine

/-- The FSM states of 10_state.md rule R36. -/
inductive Fsm where
  /-- Waiting for a command; `cmd_ready = 1`. Encoded `00`. -/
  | idle
  /-- Key schedule running. Encoded `01`. -/
  | ks
  /-- Encryption or decryption running. Encoded `10`. -/
  | run
  /-- A contract violation happened; left only by reset. Encoded `11`. -/
  | fault
  deriving DecidableEq, Repr

/-- What a host drives on the input ports at one edge (30_encoding.md rule R100; `clk` is the step itself). -/
structure Pins where
  /-- Port `rst`. -/
  rst : Bool
  /-- Port `cmd_valid`. -/
  cmdValid : Bool
  /-- Port `cmd_word`, 8 bits. -/
  cmdWord : CmdWord
  /-- Port `cmd_data`, 64 bits. -/
  cmdData : Block
  deriving DecidableEq, Repr

/-- What a host sees on the output ports between two edges (rule R100). -/
structure Outputs where
  /-- Port `cmd_ready`. -/
  cmdReady : Bool
  /-- Port `dout`, 64 bits. -/
  dout : Block
  /-- Port `status`, 8 bits. -/
  status : BitVec 8
  deriving DecidableEq, Repr

/-- One thing the host does next (rule R108), or a free choice of the input ports for one edge (rule R101). -/
inductive HostAction where
  /-- Drive exactly these values at one edge, whatever the engine does. -/
  | drive (p : Pins)
  /-- A command line: present this word and operand until the edge that accepts them. -/
  | command (word : CmdWord) (data : Block)
  /-- `RESET`: drive `rst = 1`, `cmd_valid = 0` for one edge. -/
  | reset
  /-- `WAIT`: drive `cmd_valid = 0` until an edge after which the engine is ready or has faulted. -/
  | wait
  /-- `READ`: sample the outputs between two edges. -/
  | read
  deriving DecidableEq, Repr

/-- The state: every register of rule R30, then what the host has still to do and what it has read. -/
structure State where
  /-- `KEY`, 64 bits: the last accepted key, parity bits included (rule R31). -/
  key : Block
  /-- `SK[0..15]`, 16 x 48 bits: the subkey file (rule R32). -/
  sk : SubkeyFile
  /-- `KEY_VALID`, 1 bit: a cipher instance exists (rule R33). -/
  keyValid : Bool
  /-- `C`, 28 bits: the left half of the reduced key (rule R34). -/
  c : KeyHalf
  /-- `D`, 28 bits: the right half of the reduced key (rule R34). -/
  d : KeyHalf
  /-- `L`, 32 bits: the left Feistel half (rule R35). -/
  l : Half
  /-- `R`, 32 bits: the right Feistel half (rule R35). -/
  r : Half
  /-- `st`: the FSM state (rule R36). -/
  st : Fsm
  /-- `rnd`, 4 bits: the round counter (rule R37). -/
  rnd : Round
  /-- `dir`, 1 bit: `false` (0) encrypt, `true` (1) decrypt (rule R38). -/
  dir : Bool
  /-- `DOUT`, 64 bits: the last result (rule R39). -/
  dout : Block
  /-- `DOUT_VALID`, 1 bit: `DOUT` is the result of the last accepted ENC or DEC (rule R40). -/
  doutValid : Bool
  /-- `ERR`, 2 bits: the fault code (rule R41). -/
  err : BitVec 2
  /-- The host's remaining actions, next first (rule R108). Not a register of the engine. -/
  script : List HostAction
  /-- What the host's `READ`s have sampled, oldest first (rule R108). Not a register of the engine. -/
  reads : List Outputs
  deriving DecidableEq, Repr

/-- Why a byte-level operation has no value. The engine's own faults (ILLEGAL_CMD, NO_KEY) are no stop of the model:
they are next states with `st = FAULT` (60_exceptions.md rule R281). -/
inductive Fault where
  /-- BitRange (41_bit_permutation.md rule R167): position `position` outside a sequence of `bytes` bytes. Raised only by
  the byte-level utilities `getBit`, `setBit`, `permuteBytes` and `permuteChecked`; no step raises it (rule R286). Safe. -/
  | bitRange (position : Int) (bytes : Nat)
  deriving DecidableEq, Repr

/-- Why an instruction has no meaning. -/
inductive Refusal where
  /-- Raised by `exec` for an instruction without a meaning; no arm raises it now. Safe: the model stops. -/
  | notModelled (mnemonic : String)
  deriving DecidableEq, Repr

/-- The state right after a reset edge (70_reset_and_hazards.md rules R320, R321). The seven registers a reset writes
have the rule's values; the unwritten ones have the values Config names (DESIGN CHOICE, notes/assumptions/1.md).
The host has nothing to do yet. -/
def State.reset : State where
  key := Config.unresetKey
  sk := Vector.replicate 16 Config.unresetSubkey
  keyValid := false
  c := Config.unresetKeyHalf
  d := Config.unresetKeyHalf
  l := Config.unresetHalf
  r := Config.unresetHalf
  st := .idle
  rnd := 0
  dir := false
  dout := 0x0000000000000000#64
  doutValid := false
  err := 0b00#2
  script := []
  reads := []

end Sys2Proof.Machine
end

