-- ==== Sys2Proof/Machine/Flags.lean ====
section
/-! DEFINITION. Everything the host sees: the STATUS bits (10_state.md rules R42, R46), `cmd_ready` (rule R43) and
`dout` (rule R39), each a function of the registers alone (20_memory.md rule R79). -/

namespace Sys2Proof.Machine

/-- The encoding of `st` (rule R36). -/
def Fsm.code : Fsm → BitVec 2
  | .idle => 0b00#2
  | .ks => 0b01#2
  | .run => 0b10#2
  | .fault => 0b11#2

/-- STATUS.BUSY: 1 iff `st = KS` or `st = RUN` (rule R42). -/
def State.busy (s : State) : Bool := s.st == .ks || s.st == .run

/-- STATUS.FAULT: 1 iff `st = FAULT` (rule R42). -/
def State.faulted (s : State) : Bool := s.st == .fault

/-- The STATUS word, bits 7:6 reserved as 0, 5:4 ERR, 3 FAULT, 2 DOUT_VALID, 1 KEY_VALID, 0 BUSY (rule R42). -/
def State.status (s : State) : BitVec 8 :=
  0b00#2 ++ s.err ++ BitVec.ofBool s.faulted ++ BitVec.ofBool s.doutValid ++ BitVec.ofBool s.keyValid
    ++ BitVec.ofBool s.busy

/-- `cmd_ready`: driven 1 iff `st = IDLE` (rule R43). -/
def State.cmdReady (s : State) : Bool := s.st == .idle

/-- The output ports between two edges (30_encoding.md rule R100). -/
def State.outputs (s : State) : Outputs where
  cmdReady := s.cmdReady
  dout := s.dout
  status := s.status

end Sys2Proof.Machine
end

