-- ==== Sys2Proof/WellFormed.lean ====
section
/-! DEFINITION. The checks the spec makes on what is written down: command words (30_encoding.md rules R102,
R105), operands given as byte strings (rule R106), and the shapes of the fixed tables (40_tables.md rule R147). -/

namespace Sys2Proof

/-- Every command is well formed, whatever its operand: "Every 64-bit value is a valid key" (42_key_schedule.md
rule R180) and "every 64-bit block is legal" (44_feistel_driver.md rules R250, R251). -/
def Instr.wf : Instr → Bool
  | .ldkey _ => true
  | .enc _ => true
  | .dec _ => true

/-- The reserved field `rsv`, bits 7:2 of a command word (rule R102). -/
def CmdWord.rsv (w : CmdWord) : BitVec 6 := w.extractLsb' 2 6

/-- The operation field `op`, bits 1:0 of a command word (rule R102). -/
def CmdWord.op (w : CmdWord) : BitVec 2 := w.extractLsb' 0 2

/-- A legal command word has a zero reserved field and a nonzero operation (rules R102, R105). -/
def CmdWord.wf (w : CmdWord) : Bool := w.rsv == 0 && w.op != 0

/-- A byte string a host adapter may put on the 64-bit operand port: exactly 8 bytes (rules R106, R285). -/
def operandBytesOk (bs : List Byte) : Bool := bs.length == 8

/-- The shape of a permutation or selection table over `n` input bits giving `m` output bits: `m` entries, each
a 1-based input position (40_tables.md rules R130, R147). -/
def permTableOk (n m : Nat) (entries : List Nat) : Bool :=
  entries.length == m && entries.all fun t => 1 ≤ t && t ≤ n

/-- The shape of a substitution table: 64 entries, each in `[0, 15]` (rules R138, R147). -/
def sboxTableOk (entries : List Nat) : Bool :=
  entries.length == 64 && entries.all fun e => e ≤ 15

/-- The shape of the rotation schedule: 16 entries, each 1 or 2, summing to 28 (rules R137, R147). -/
def rotTableOk (entries : List Nat) : Bool :=
  entries.length == 16 && entries.all (fun r => r == 1 || r == 2) && entries.sum == 28

end Sys2Proof
end

