-- ==== Sys2Proof/Decode.lean ====
section
/-! DEFINITION. Command decoding: a total function of the command word (30_encoding.md rule R104) that rejects
every illegal word by name (rule R105), the encoder beside it, and the opcode table's numbering of a word. -/

namespace Sys2Proof

/-- Why a command word is illegal. Either reason raises the same ILLEGAL_CMD fault (60_exceptions.md rule R283). -/
inductive Illegal where
  /-- The reserved field is not zero (rule R105: words `0x04` to `0xFF`). -/
  | reservedField (rsv : BitVec 6)
  /-- The reserved field is zero and the operation is `00` (rule R105: word `0x00`). -/
  | opZero
  deriving DecidableEq, Repr

/-- `Decode` of rule R104 on `cmd_word`, with the operand sampled with it (rule R103). -/
def decode (word : CmdWord) (data : Block) : Except Illegal Instr :=
  if word.rsv ≠ 0 then .error (.reservedField word.rsv)
  else if word.op = 0b01#2 then .ok (.ldkey data)
  else if word.op = 0b10#2 then .ok (.enc data)
  else if word.op = 0b11#2 then .ok (.dec data)
  else .error .opZero

/-- The command word and the operand that present a command (the table of rule R104; rule R107). -/
def encode : Instr → CmdWord × Block
  | .ldkey key => (0b00000001#8, key)
  | .enc block => (0b00000010#8, block)
  | .dec block => (0b00000011#8, block)

/-- The command word in a number whose bits are numbered as the opcode table numbers them: bits 7:0. -/
def tableCmdWord (nbits w : Nat) : CmdWord := BitVec.ofNat 8 (w % 2 ^ nbits)

/-- The operand in the same number: the 64 bits after the command word, bits 71:8. -/
def tableOperand (nbits w : Nat) : Block := BitVec.ofNat 64 ((w % 2 ^ nbits) >>> 8)

/-- The instruction the decoder reads from the table word `w` of `nbits` bits, the bits above them zero. -/
def decodeTableWord (nbits w : Nat) : Option Instr :=
  match decode (tableCmdWord nbits w) (tableOperand nbits w) with
  | .ok i => some i
  | .error _ => none

end Sys2Proof
end

