-- ==== Sys2Proof/Machine/BitAddr.lean ====
section
/-! DEFINITION. Bit addressing (41_bit_permutation.md rules R160 to R162) and the byte order of every value
(20_memory.md rules R72, R73). -/

namespace Sys2Proof.Machine

/-- `get_bit(data, pos)` of rule R160: position 0 is the most significant bit of byte 0. -/
def getBit (data : List Byte) (pos : Nat) : Except Fault Bool :=
  if h : pos < 8 * data.length then
    .ok (((data[pos / 8]'(by omega) >>> (7 - pos % 8)) &&& 1#8) == 1#8)
  else .error (.bitRange pos data.length)

/-- `set_bit(data, pos, value)` of rule R161: the new sequence, all other bits untouched. -/
def setBit (data : List Byte) (pos : Nat) (value : Bool) : Except Fault (List Byte) :=
  if h : pos < 8 * data.length then
    let k := 7 - pos % 8
    .ok (data.set (pos / 8)
      ((data[pos / 8]'(by omega) &&& ~~~(1#8 <<< k)) ||| ((BitVec.ofBool value).setWidth 8 <<< k)))
  else .error (.bitRange pos data.length)

/-- The byte sequence an `n`-bit value holds: byte `j` is bits `[n-1-8j : n-8-8j]` (rule R72). -/
def bytesOf {n : Nat} (v : BitVec n) : List Byte :=
  (List.range (n / 8)).map fun j => v.extractLsb' (n - 8 - 8 * j) 8

/-- The `n`-bit value that holds a byte sequence, byte 0 in the highest bits (rule R72). -/
def wordOfBytes (n : Nat) (bs : List Byte) : BitVec n :=
  bs.foldl (fun acc b => (acc <<< 8) ||| b.setWidth n) 0

end Sys2Proof.Machine
end

