-- ==== Sys2Proof/Machine/Permute.lean ====
section
/-! DEFINITION. The permutation engine (41_bit_permutation.md rules R163 to R167): one routine for every fixed table,
in its word form, its checked form and the source's byte form. -/

namespace Sys2Proof.Machine

/-- A permutation or selection table over `n` input bits giving `m` output bits, with the proof that it has the
shape of 40_tables.md rule R147: rule R148 asks for it once, for the constants. -/
structure Table (n m : Nat) where
  /-- The 1-based input positions, in table order. -/
  entries : List Nat
  /-- Its length is the output width and every entry is in `[1, n]`. -/
  ok : permTableOk n m entries = true

/-- The table's length is its output width. -/
theorem Table.length_entries {n m : Nat} (T : Table n m) : T.entries.length = m := by
  have h := T.ok
  simp only [permTableOk, Bool.and_eq_true, beq_iff_eq] at h
  exact h.1

/-- `Permute(T, n, v)` of rule R163: position `i` of the result is position `T[i]-1` of `v`. -/
def permute {n m : Nat} (T : Table n m) (v : BitVec n) : BitVec m :=
  (BitVec.ofBoolListBE (T.entries.map fun t => pos v (t - 1))).cast (by simp [T.length_entries])

/-- `Permute` over a table that is not known to be in range: an entry outside `[1, n]` gives the BitRange fault, never
a value and never a wrapped position (rule R167; 93_implementation_defined.md U7). -/
def permuteChecked {n : Nat} (entries : List Nat) (v : BitVec n) : Except Fault (BitVec entries.length) :=
  match entries.find? fun t => t < 1 || n < t with
  | some t => .error (.bitRange (t - 1) (n / 8))
  | none => .ok ((BitVec.ofBoolListBE (entries.map fun t => pos v (t - 1))).cast (by simp))

/-- One step of the byte form: copy input position `t - 1` to output position `i` (rule R164). -/
def permuteByteStep (input : List Byte) (out : List Byte) (i t : Nat) : Except Fault (List Byte) :=
  if t = 0 then .error (.bitRange (-1) input.length)
  else
    match getBit input (t - 1) with
    | .error e => .error e
    | .ok b => setBit out i b

/-- The byte form's loop over the table's remaining entries, `i` being the next output position (rule R164). -/
def permuteByteLoop (input : List Byte) : List Nat → Nat → List Byte → Except Fault (List Byte)
  | [], _, out => .ok out
  | t :: ts, i, out =>
    match permuteByteStep input out i t with
    | .error e => .error e
    | .ok out' => permuteByteLoop input ts (i + 1) out'

/-- `permute(input, table)` in the source's byte form (rule R164): `ceil(len/8)` bytes, starting from all zeros. -/
def permuteBytes (input : List Byte) (entries : List Nat) : Except Fault (List Byte) :=
  permuteByteLoop input entries 0 (List.replicate ((entries.length + 7) / 8) 0#8)

/-- The table `W` with `W[i] = T[U[i]-1]` (rule R169), as a list. -/
def composeEntries (U T : List Nat) : List Nat :=
  U.map fun u => T.getD (u - 1) 0

end Sys2Proof.Machine
end

