-- ==== Sys2Proof/Machine/KeySchedule.lean ====
section
/-! DEFINITION. The key schedule as a pure function of the key (42_key_schedule.md rules R181, R183). -/

namespace Sys2Proof.Machine

/-- `rotl_28(x, s)` of rule R183: the circular left rotation of a 28-bit half, for `s` in `{1, 2}` (rule R184). -/
def rotl28 (x : KeyHalf) (s : Nat) : KeyHalf :=
  (x <<< s) ||| (x >>> (28 - s))

/-- The two halves `C` and `D` of the reduced key: positions 0 to 27 and 28 to 55 (rule R181, step 2). -/
def splitKey (cd : ReducedKey) : KeyHalf × KeyHalf :=
  (cd.extractLsb' 28 28, cd.extractLsb' 0 28)

/-- Both halves rotated by the amount of round `k` (rule R181, step 3). -/
def rotateHalves (k : Round) (h : KeyHalf × KeyHalf) : KeyHalf × KeyHalf :=
  (rotl28 h.1 (rotAmount k), rotl28 h.2 (rotAmount k))

/-- The subkey selected from two halves (rule R181, step 4). -/
def subkeyOf (h : KeyHalf × KeyHalf) : Subkey :=
  permute pc2Table (h.1 ++ h.2)

/-- The halves of key `K` after its first `i` rounds, cumulatively rotated (rules R181, R187). -/
def keyHalves (K : Block) : Nat → KeyHalf × KeyHalf
  | 0 => splitKey (permute pc1Table K)
  | i + 1 => rotateHalves (BitVec.ofNat 4 i) (keyHalves K i)

/-- `KeySchedule(K)` of rule R181: subkey `i` is selected after round `i`'s rotation. -/
def keySchedule (K : Block) : SubkeyFile :=
  Vector.ofFn fun i : Fin 16 => subkeyOf (keyHalves K (i.val + 1))

end Sys2Proof.Machine
end

