-- ==== Sys2Proof/Machine/RoundFunction.lean ====
section
/-! DEFINITION. The round function (43_round_function.md rules R210 to R216): a pure function of a half and a subkey. -/

namespace Sys2Proof.Machine

/-- The row a 6-bit group selects: its outer bits, position 0 the high one (rule R214). -/
def sboxRow (b : BitVec 6) : BitVec 2 :=
  BitVec.ofBool (pos b 0) ++ BitVec.ofBool (pos b 5)

/-- The column a 6-bit group selects: its inner bits, position 1 the high one (rule R214). -/
def sboxCol (b : BitVec 6) : BitVec 4 :=
  b.extractLsb' 1 4

/-- `Sbox(j, b)` of rule R214: entry `row*16 + col` of `S(j+1)`. -/
def sbox (j : Fin 8) (b : BitVec 6) : BitVec 4 :=
  BitVec.ofNat 4 ((sboxTable j).entries[(sboxRow b).toNat * 16 + (sboxCol b).toNat]'(by
    rw [(sboxTable j).length_entries]
    have := (sboxRow b).isLt
    have := (sboxCol b).isLt
    omega))

/-- Steps 1 and 2: the expanded half XOR the subkey (rules R211, R213). -/
def mixKey (r : Half) (k : Subkey) : BitVec 48 :=
  permute eTable r ^^^ k

/-- Group `j` of the mixed value: bits `[47-6j : 42-6j]` (rule R215). -/
def sboxGroup (x : BitVec 48) (j : Fin 8) : BitVec 6 :=
  x.extractLsb' (42 - 6 * j.val) 6

/-- Steps 3 and 4: eight substitutions, group 0's nibble in the high bits (rule R215). -/
def substitute (x : BitVec 48) : BitVec 32 :=
  sbox 0 (sboxGroup x 0) ++ sbox 1 (sboxGroup x 1) ++ sbox 2 (sboxGroup x 2) ++ sbox 3 (sboxGroup x 3)
    ++ sbox 4 (sboxGroup x 4) ++ sbox 5 (sboxGroup x 5) ++ sbox 6 (sboxGroup x 6) ++ sbox 7 (sboxGroup x 7)

/-- `F(r, k)` of rule R216. -/
def roundF (r : Half) (k : Subkey) : Half :=
  permute pTable (substitute (mixKey r k))

end Sys2Proof.Machine
end

