-- ==== Sys2Proof/Machine/Feistel.lean ====
section
/-! DEFINITION. The Feistel transform as a pure function (44_feistel_driver.md rules R241 to R243, R246). -/

namespace Sys2Proof.Machine

/-- The two halves of a permuted block: `L` its first 4 bytes, `R` its last 4 (rule R241). -/
def splitBlock (b : Block) : Half × Half :=
  (b.extractLsb' 32 32, b.extractLsb' 0 32)

/-- The halves a block starts from: the initial permutation, split (rules R241, R244). -/
def startHalves (b : Block) : Half × Half :=
  splitBlock (permute ipTable b)

/-- One round: the new `L` is the old `R`, the new `R` is the old `L` XOR `F` of the old `R`, both at once (rule R243). -/
def feistelRound (k : Subkey) (h : Half × Half) : Half × Half :=
  (h.2, h.1 ^^^ roundF h.2 k)

/-- The subkey index of round `i`: `i` to encrypt, `15 - i` to decrypt (rules R241, R245). -/
def subkeyIndex (dir : Bool) (i : Round) : Round :=
  if dir then 15#4 - i else i

/-- The subkey file's entry `k` (10_state.md rule R47). -/
def readSubkey (ks : SubkeyFile) (k : Round) : Subkey :=
  ks[k.toNat]'k.isLt

/-- The half states `(L_i, R_i)` from the starting halves `h`, after `i` rounds (rule R241). -/
def halfStates (ks : SubkeyFile) (dir : Bool) (h : Half × Half) : Nat → Half × Half
  | 0 => h
  | i + 1 => feistelRound (readSubkey ks (subkeyIndex dir (BitVec.ofNat 4 i))) (halfStates ks dir h i)

/-- The output block of a half state: FP of `R ‖ L`, the final swap undone (rules R241, R246). -/
def outputBlock (h : Half × Half) : Block :=
  permute fpTable (h.2 ++ h.1)

/-- `Crypt(ks, B, dir)` of rule R241. -/
def crypt (ks : SubkeyFile) (b : Block) (dir : Bool) : Block :=
  outputBlock (halfStates ks dir (startHalves b) 16)

/-- `Encrypt(K, B)` of rule R242. -/
def encrypt (K b : Block) : Block := crypt (keySchedule K) b false

/-- `Decrypt(K, B)` of rule R242. -/
def decrypt (K b : Block) : Block := crypt (keySchedule K) b true

end Sys2Proof.Machine
end

