-- ==== Sys2Proof/Machine/Operands.lean ====
section
/-! DEFINITION. The operand forms: the one 64-bit operand of a command (30_encoding.md rule R103), its two spellings
in a script (rule R107), and the byte strings a host adapter turns into one (rule R106). There are no register,
immediate or memory operands (10_state.md rule R44, 20_memory.md rule R70). -/

namespace Sys2Proof.Machine

/-- A script's 64-bit operand `<d64>` (rule R107): the two spellings denote the same kind of value. -/
inductive D64 where
  /-- `0x` and sixteen hex digits: the port value itself. -/
  | hex (value : Block)
  /-- `[b0 b1 b2 b3 b4 b5 b6 b7]`: eight bytes, byte 0 first. -/
  | bytes (bs : Vector Byte 8)
  deriving DecidableEq, Repr

/-- The port value an operand denotes (rules R103, R107). -/
def D64.value : D64 → Block
  | .hex v => v
  | .bytes bs => wordOfBytes 64 bs.toList

/-- A host adapter that accepts byte strings rejects every length but 8 before the port (rules R106, R285). -/
def operandOfBytes (bs : List Byte) : Option Block :=
  if operandBytesOk bs then some (wordOfBytes 64 bs) else none

/-- The quiet input ports: no reset and no command. The command inputs are ignored then (rule R101). -/
def Pins.quiet : Pins where
  rst := false
  cmdValid := false
  cmdWord := 0
  cmdData := 0

/-- The input ports while a command is presented (rule R101). -/
def Pins.present (word : CmdWord) (data : Block) : Pins where
  rst := false
  cmdValid := true
  cmdWord := word
  cmdData := data

/-- The input ports at a reset edge (30_encoding.md rule R108). -/
def Pins.resetEdge : Pins where
  rst := true
  cmdValid := false
  cmdWord := 0
  cmdData := 0

end Sys2Proof.Machine
end

