-- ==== Sys2Proof/Machine/Ops.lean ====
section
/-! DEFINITION. The named operations of the engine, one per action of the FSM table (44_feistel_driver.md rule R240).
Each writes its registers together, every right-hand side reading the state from before the edge (00_scope.md
rule R14). The engine has no memory (20_memory.md rule R70), so there is no memory operation. -/

namespace Sys2Proof.Machine

/-- The faults a command can raise (60_exceptions.md rule R281). -/
inductive FaultCode where
  /-- An accepted command word is not `0x01`, `0x02` or `0x03` (rule R283). -/
  | illegalCmd
  /-- ENC or DEC accepted while `KEY_VALID = 0` (rule R284). -/
  | noKey
  deriving DecidableEq, Repr

/-- The code held in ERR (60_exceptions.md rule R282). -/
def FaultCode.bits : FaultCode → BitVec 2
  | .illegalCmd => 0b01#2
  | .noKey => 0b10#2

/-- Taking an exception: `raise Fault(code)` of 60_exceptions.md rule R281. It writes `ERR` and `st` and nothing else;
it saves nothing and transfers control nowhere (rule R290). -/
def raiseFault (code : FaultCode) (s : State) : State :=
  { s with err := code.bits, st := .fault }

/-- The reset edge of 70_reset_and_hazards.md rule R320, the only way out of a fault (60_exceptions.md rule R291): `KEY`,
`SK`, `C`, `D`, `L` and `R` are not written. -/
def resetEdge (s : State) : State :=
  { s with
    st := .idle
    rnd := 0
    dir := false
    keyValid := false
    dout := 0x0000000000000000#64
    doutValid := false
    err := 0b00#2 }

/-- The LDKEY acceptance action of 42_key_schedule.md rule R182. -/
def acceptKey (key : Block) (s : State) : State :=
  let cd := permute pc1Table key
  { s with
    key := key
    c := (splitKey cd).1
    d := (splitKey cd).2
    rnd := 0
    keyValid := false
    st := .ks }

/-- The ENC and DEC acceptance action of 44_feistel_driver.md rule R244; `dir` is 1 for DEC. -/
def acceptBlock (dir : Bool) (block : Block) (s : State) : State :=
  { s with
    l := (startHalves block).1
    r := (startHalves block).2
    rnd := 0
    dir := dir
    doutValid := false
    st := .run }

/-- ENC or DEC at an accepting edge: the NO_KEY fault without a cipher instance, otherwise the acceptance action
(44_feistel_driver.md rule R240, 60_exceptions.md rule R284). -/
def acceptCipher (dir : Bool) (block : Block) (s : State) : State :=
  if s.keyValid then acceptBlock dir block s else raiseFault .noKey s

/-- A command acts only when the engine accepts it, that is when `cmd_ready = 1`; otherwise it has no effect and waits
(30_encoding.md rule R101, 20_memory.md rule R84). -/
def whenReady (act : State → State) (s : State) : State :=
  if s.cmdReady then act s else s

/-- The subkey file with entry `k` replaced (10_state.md rule R32). -/
def writeSubkey (sk : SubkeyFile) (k : Round) (v : Subkey) : SubkeyFile :=
  sk.set k.toNat v k.isLt

/-- The KS step of 42_key_schedule.md rule R185. -/
def ksStep (s : State) : State :=
  let h := rotateHalves s.rnd (s.c, s.d)
  { s with
    c := h.1
    d := h.2
    sk := writeSubkey s.sk s.rnd (subkeyOf h)
    keyValid := if s.rnd = 15 then true else s.keyValid
    st := if s.rnd = 15 then .idle else s.st
    rnd := if s.rnd = 15 then s.rnd else s.rnd + 1 }

/-- The RUN step of 44_feistel_driver.md rules R245, R247. -/
def runStep (s : State) : State :=
  let h := feistelRound (readSubkey s.sk (subkeyIndex s.dir s.rnd)) (s.l, s.r)
  { s with
    l := h.1
    r := h.2
    dout := if s.rnd = 15 then outputBlock h else s.dout
    doutValid := if s.rnd = 15 then true else s.doutValid
    st := if s.rnd = 15 then .idle else s.st
    rnd := if s.rnd = 15 then s.rnd else s.rnd + 1 }

end Sys2Proof.Machine
end

