-- ==== Sys2Proof/Machine/Cipher.lean ====
section
/-! DEFINITION. The cipher family: the meanings of ENC and DEC at the edge that presents them (44_feistel_driver.md rules
R244, R250, R251). Their sixteen RUN steps are the engine's own, at the edges that follow (rule R245;
Machine/Edge.lean). -/

namespace Sys2Proof.Machine

/-- ENC: accepted in IDLE only, with `dir <- 0`; NO_KEY without a cipher instance (rule R250). -/
def execEnc (block : Block) (s : State) : Host.Outcome State Fault Refusal :=
  .next (whenReady (acceptCipher false block) s)

/-- DEC: accepted in IDLE only, with `dir <- 1`; NO_KEY without a cipher instance (rule R251). -/
def execDec (block : Block) (s : State) : Host.Outcome State Fault Refusal :=
  .next (whenReady (acceptCipher true block) s)

end Sys2Proof.Machine
end

