-- ==== Sys2Proof/Machine/KeyLoad.lean ====
section
/-! DEFINITION. The key family: the meaning of LDKEY at the edge that presents it (42_key_schedule.md rules R180, R182). Its
sixteen KS steps are the engine's own, at the edges that follow (rule R185; Machine/Edge.lean). -/

namespace Sys2Proof.Machine

/-- LDKEY: accepted in IDLE only, then the acceptance action; it raises nothing (rule R180). -/
def execLdkey (key : Block) (s : State) : Host.Outcome State Fault Refusal :=
  .next (whenReady (acceptKey key) s)

end Sys2Proof.Machine
end

