-- ==== Sys2Proof/Machine/Edge.lean ====
section
/-! DEFINITION. One clock edge of the engine for given input ports: the FSM table of 44_feistel_driver.md rule R240, with the
priorities of 60_exceptions.md rule R289. Every register write of an edge happens at that edge (20_memory.md R79). -/

namespace Sys2Proof.Machine

/-- Acceptance (30_encoding.md rule R101): no reset, a command presented, and the engine ready. -/
def accepts (p : Pins) (s : State) : Bool := !p.rst && p.cmdValid && s.cmdReady

/-- The accepting edge: an illegal word raises ILLEGAL_CMD, a legal one has its command's meaning (rules R104, R283). -/
def acceptCommand (p : Pins) (s : State) : Host.Outcome State Fault Refusal :=
  match decode p.cmdWord p.cmdData with
  | .error _ => .next (raiseFault .illegalCmd s)
  | .ok i => exec i s

/-- One edge (rule R240): reset first; then the row of `st`. -/
def edge (p : Pins) (s : State) : Host.Outcome State Fault Refusal :=
  if p.rst then .next (resetEdge s)
  else
    match s.st with
    | .idle => if accepts p s then acceptCommand p s else .next s
    | .ks => .next (ksStep s)
    | .run => .next (runStep s)
    | .fault => .next s

/-- Consecutive edges, one per element of the list, each with its own input ports: any host, whatever it drives. -/
def runEdges : List Pins → State → Host.Outcome State Fault Refusal
  | [], s => .next s
  | p :: ps, s =>
    match edge p s with
    | .next t => runEdges ps t
    | .fault f => .fault f
    | .refused r => .refused r

end Sys2Proof.Machine
end

