-- ==== Sys2Proof/Machine/HostPort.lean ====
section
/-! DEFINITION. The host as an agent (30_encoding.md rules R100, R101, R107, R108): what it drives at the next edge, what a READ
samples before it, and how its script moves on after it. -/

namespace Sys2Proof.Machine

/-- The script once its leading READs, which take no edge, are done (rule R108). -/
def dropReads : List HostAction → List HostAction
  | .read :: rest => dropReads rest
  | actions => actions

/-- How many READs stand before the next edge. -/
def leadingReads : List HostAction → Nat
  | .read :: rest => leadingReads rest + 1
  | _ => 0

/-- Performing the READs before an edge: each samples the same output ports (rule R108, 20_memory.md rule R76). -/
def doReads (s : State) : State :=
  { s with
    reads := s.reads ++ List.replicate (leadingReads s.script) s.outputs
    script := dropReads s.script }

/-- What the host drives at the next edge, from its next action (rule R108); a READ takes no edge. -/
def hostPins : List HostAction → Pins
  | [] => .quiet
  | .drive p :: _ => p
  | .command word data :: _ => .present word data
  | .reset :: _ => .resetEdge
  | .wait :: _ => .quiet
  | .read :: rest => hostPins rest

/-- Whether a WAIT ends: the engine is ready or has faulted after the edge (rule R108). -/
def waitDone (s : State) : Bool := s.cmdReady || s.faulted

/-- The script after an edge, `accepted` telling whether the edge accepted a command: a command line stays until it is
accepted, a WAIT until it is done (rule R108). -/
def scriptAfter (accepted : Bool) (s : State) : List HostAction → List HostAction
  | [] => []
  | .drive _ :: rest => rest
  | .command word data :: rest => if accepted then rest else .command word data :: rest
  | .reset :: rest => rest
  | .wait :: rest => if waitDone s then rest else .wait :: rest
  | .read :: rest => .read :: rest

/-- The host moves on after an edge. -/
def hostAdvance (accepted : Bool) (s : State) : State :=
  { s with script := scriptAfter accepted s s.script }

/-- One edge with the host that drives it: its READs, the edge, and its moving on. -/
def hostEdge (s : State) : Host.Outcome State Fault Refusal :=
  let s₁ := doReads s
  let p := hostPins s₁.script
  match edge p s₁ with
  | .next t => .next (hostAdvance (accepts p s₁) t)
  | .fault f => .fault f
  | .refused r => .refused r

/-- The state in which the next edge presents the command in the table word `w` of `nbits` bits to an engine that is ready
for it: the host's next action is that command line, and `st` is IDLE, which is what acceptance needs (rule R101). -/
def presentTableWord (s : State) (nbits w : Nat) : State :=
  { s with
    st := .idle
    script := .command (tableCmdWord nbits w) (tableOperand nbits w) :: s.script }

end Sys2Proof.Machine
end

