-- ==== Sys2Proof/Machine/Step.lean ====
section
/-! DEFINITION. The step: one rising edge of `clk` (20_memory.md rule R79), the host driving the input ports. -/

namespace Sys2Proof.Machine

/-- One edge of the engine and its host. -/
def step (s : State) : Host.Outcome State Fault Refusal := hostEdge s

/-- `s` with the command of the table word `w` presented at the next edge. -/
def State.withFetchWord (s : State) (nbits w : Nat) : State := presentTableWord s nbits w

end Sys2Proof.Machine
end

