-- ==== Sys2Proof/Machine/Script.lean ====
section
/-! DEFINITION. The host command script of 30_encoding.md rules R107 and R108: its lines, what the host does for each, and the
reading of a line's text. -/

namespace Sys2Proof.Machine

/-- One line of a script (rules R107, R108). -/
inductive ScriptLine where
  /-- `LDKEY <d64>`. -/
  | ldkey (d : D64)
  /-- `ENC <d64>`. -/
  | enc (d : D64)
  /-- `DEC <d64>`. -/
  | dec (d : D64)
  /-- `RAW <w8>, <d64>`: any word, legal or not. -/
  | raw (w : CmdWord) (d : D64)
  /-- `RESET`. -/
  | reset
  /-- `WAIT`. -/
  | wait
  /-- `READ`. -/
  | read
  deriving DecidableEq, Repr

/-- The command word and operand a host presents for a command. -/
def presentInstr (i : Instr) : HostAction := .command (encode i).1 (encode i).2

/-- The one host action a line stands for: no line expands into more than one command (rule R108). -/
def ScriptLine.action : ScriptLine → HostAction
  | .ldkey d => presentInstr (.ldkey d.value)
  | .enc d => presentInstr (.enc d.value)
  | .dec d => presentInstr (.dec d.value)
  | .raw w d => .command w d.value
  | .reset => .reset
  | .wait => .wait
  | .read => .read

/-- The state whose host has this script to do. -/
def loadScript (lines : List ScriptLine) (s : State) : State :=
  { s with script := lines.map ScriptLine.action }

/-- The value of one hex digit, in either case. -/
def hexDigit (ch : Char) : Option Nat :=
  if '0'.toNat ≤ ch.toNat ∧ ch.toNat ≤ '9'.toNat then some (ch.toNat - '0'.toNat)
  else if 'A'.toNat ≤ ch.toNat ∧ ch.toNat ≤ 'F'.toNat then some (ch.toNat - 'A'.toNat + 10)
  else if 'a'.toNat ≤ ch.toNat ∧ ch.toNat ≤ 'f'.toNat then some (ch.toNat - 'a'.toNat + 10)
  else none

/-- The value of a run of hex digits, most significant first (00_scope.md rule R12). -/
def hexValue (acc : Nat) : List Char → Option Nat
  | [] => some acc
  | ch :: rest =>
    match hexDigit ch with
    | some v => hexValue (16 * acc + v) rest
    | none => none

/-- Exactly `n` hex digits and nothing else. -/
def hexExactly (n : Nat) (cs : List Char) : Option Nat :=
  if cs.length = n then hexValue 0 cs else none

/-- `0x` followed by exactly `n` hex digits. -/
def hexLiteral (n : Nat) : List Char → Option Nat
  | '0' :: 'x' :: rest => hexExactly n rest
  | _ => none

/-- A line without its comment: `--` starts one (rule R107). -/
def dropComment : List Char → List Char
  | '-' :: '-' :: _ => []
  | ch :: rest => ch :: dropComment rest
  | [] => []

/-- A finished word put before the others, if it is not empty. -/
def pushWord (word : List Char) (words : List (List Char)) : List (List Char) :=
  if word.isEmpty then words else word :: words

/-- The words of a line: blanks separate them; a comma and the brackets are words of their own. -/
def words (word : List Char) : List Char → List (List Char)
  | [] => pushWord word []
  | ' ' :: rest => pushWord word (words [] rest)
  | '\t' :: rest => pushWord word (words [] rest)
  | ',' :: rest => pushWord word ([','] :: words [] rest)
  | '[' :: rest => pushWord word (['['] :: words [] rest)
  | ']' :: rest => pushWord word ([']'] :: words [] rest)
  | ch :: rest => words (word ++ [ch]) rest

/-- Each of the words as two hex digits. -/
def hexBytes : List (List Char) → Option (List Byte)
  | [] => some []
  | w :: ws =>
    match hexExactly 2 w, hexBytes ws with
    | some v, some vs => some (BitVec.ofNat 8 v :: vs)
    | _, _ => none

/-- `<d64>` (rule R107): `0x` and sixteen digits, or eight bracketed bytes. -/
def parseD64 : List (List Char) → Option D64
  | [w] => (hexLiteral 16 w).map fun v => .hex (BitVec.ofNat 64 v)
  | [['['], b0, b1, b2, b3, b4, b5, b6, b7, [']']] =>
    match hexBytes [b0, b1, b2, b3, b4, b5, b6, b7] with
    | some [c0, c1, c2, c3, c4, c5, c6, c7] => some (.bytes #v[c0, c1, c2, c3, c4, c5, c6, c7])
    | _ => none
  | _ => none

/-- What one line of text says: nothing but a comment or blanks, one script line, or no line of the syntax. -/
inductive LineText where
  /-- Blanks or a comment only. -/
  | blank
  /-- A line of the script. -/
  | line (l : ScriptLine)
  /-- Not in the syntax of rules R107, R108. -/
  | malformed
  deriving DecidableEq, Repr

/-- The line an operation with an operand stands for, if the operand is in the syntax. -/
def withOperand (mk : D64 → ScriptLine) (ws : List (List Char)) : LineText :=
  match parseD64 ws with
  | some d => .line (mk d)
  | none => .malformed

/-- The line a list of words says; mnemonics are upper case (rule R107). -/
def parseWords : List (List Char) → LineText
  | [] => .blank
  | ['L', 'D', 'K', 'E', 'Y'] :: ws => withOperand .ldkey ws
  | ['E', 'N', 'C'] :: ws => withOperand .enc ws
  | ['D', 'E', 'C'] :: ws => withOperand .dec ws
  | ['R', 'A', 'W'] :: w :: [','] :: ws =>
    match hexLiteral 2 w with
    | some v => withOperand (.raw (BitVec.ofNat 8 v)) ws
    | none => .malformed
  | [['R', 'E', 'S', 'E', 'T']] => .line .reset
  | [['W', 'A', 'I', 'T']] => .line .wait
  | [['R', 'E', 'A', 'D']] => .line .read
  | _ => .malformed

/-- The reading of one line of text (rule R107: one command per line). -/
def parseLine (text : List Char) : LineText := parseWords (words [] (dropComment text))

/-- The script of a list of text lines; none if a line is malformed. -/
def parseScript : List (List Char) → Option (List ScriptLine)
  | [] => some []
  | text :: rest =>
    match parseLine text, parseScript rest with
    | .blank, some ls => some ls
    | .line l, some ls => some (l :: ls)
    | _, _ => none

end Sys2Proof.Machine
end

