-- ==== Sys2Proof/Machine/CommandLevel.lean ====
section
/-! DEFINITION. The command-level abstraction of 44_feistel_driver.md rule R254: an accepted command and its sixteen steps as
one transition from IDLE. It is no part of the step; statements relate the step to it. -/

namespace Sys2Proof.Machine

/-- The end state of an LDKEY (rules R180, R254). -/
def loadKey (K : Block) (s : State) : State :=
  { s with
    key := K
    sk := keySchedule K
    c := (splitKey (permute pc1Table K)).1
    d := (splitKey (permute pc1Table K)).2
    keyValid := true
    rnd := 15
    st := .idle }

/-- The end state of an ENC (`dir` 0) or DEC (`dir` 1) under a cipher instance (rules R250, R251, R254). -/
def cryptBlock (dir : Bool) (b : Block) (s : State) : State :=
  let h := halfStates s.sk dir (startHalves b) 16
  { s with
    dout := crypt s.sk b dir
    doutValid := true
    dir := dir
    rnd := 15
    l := h.1
    r := h.2
    st := .idle }

/-- The whole effect of a command accepted in IDLE (rule R254). -/
def commandEffect (i : Instr) (s : State) : State :=
  match i with
  | .ldkey K => loadKey K s
  | .enc b => if s.keyValid then cryptBlock false b s else raiseFault .noKey s
  | .dec b => if s.keyValid then cryptBlock true b s else raiseFault .noKey s

end Sys2Proof.Machine
end

