-- ==== Sys2Proof/Safety.lean ====
section
/-! DEFINITION. What holds of the engine after every edge of an execution that starts with a reset, in the terms the
statements use: the instance invariant of 10_state.md rule R49, the legal values of rules R37, R41 and R42, and the
side conditions of a run of edges. -/

namespace Sys2Proof.Machine

/-- The cipher instance of 10_state.md rule R49: the subkeys are those of `KEY`, and `C ‖ D` is its reduced key. -/
structure HoldsInstance (s : State) : Prop where
  /-- `SK[k] = KeySchedule(KEY)[k]` for every `k`. -/
  subkeys : s.sk = keySchedule s.key
  /-- `C ‖ D = Permute(PC1, 64, KEY)`. -/
  halves : s.c ++ s.d = permute pc1Table s.key

/-- The key schedule with its first `rnd` rounds done (42_key_schedule.md rules R187, R188). -/
structure ScheduleInProgress (s : State) : Prop where
  /-- `C` and `D` are the halves of `KEY` as left by the rounds done. -/
  halves : (s.c, s.d) = keyHalves s.key s.rnd.toNat
  /-- The subkeys of the rounds done are written. -/
  subkeys : ∀ j : Round, j.toNat < s.rnd.toNat → readSubkey s.sk j = readSubkey (keySchedule s.key) j

/-- The engine's invariant. -/
structure Inv (s : State) : Prop where
  /-- In FAULT, ERR is ILLEGAL_CMD or NO_KEY (rule R42). -/
  faultCode : s.st = .fault → s.err = FaultCode.illegalCmd.bits ∨ s.err = FaultCode.noKey.bits
  /-- Outside FAULT, ERR is `00` (rule R42). -/
  noFaultCode : s.st ≠ .fault → s.err = 0b00#2
  /-- NO_KEY is raised only without a cipher instance (60_exceptions.md rule R284). -/
  noKeyMeansNoKey : s.err = FaultCode.noKey.bits → s.keyValid = false
  /-- During the key schedule there is no instance yet, and the rounds done are right (rules R33, R188). -/
  keyScheduling : s.st = .ks → s.keyValid = false ∧ ScheduleInProgress s
  /-- During a RUN there is an instance and no current result (rules R40, R245). -/
  running : s.st = .run → s.keyValid = true ∧ s.doutValid = false
  /-- `KEY_VALID = 1` means a cipher instance exists (rules R33, R49). -/
  keyed : s.keyValid = true → HoldsInstance s
  /-- Without an instance, and outside the key schedule, no result is held (95_test_vectors.md section 3.6). -/
  noStaleResult : s.keyValid = false → s.st ≠ .ks → s.doutValid = false
  /-- At rest `rnd` is 15 after a completed command and 0 after a reset (rules R37, R320). -/
  restingRound : s.st = .idle ∨ s.st = .fault → s.rnd = if s.keyValid then 15 else 0

/-- The ten values STATUS takes in an execution that starts with a reset (95_test_vectors.md section 3.6). -/
def reachableStatus : List (BitVec 8) :=
  [0x00#8, 0x01#8, 0x05#8, 0x02#8, 0x03#8, 0x06#8, 0x18#8, 0x1A#8, 0x1E#8, 0x28#8]

/-- No edge of the list is a reset edge; the host may drive anything else. -/
abbrev NoReset (ps : List Pins) : Prop := ∀ p ∈ ps, p.rst = false

/-- Sixteen edges without a reset: the steps of one command, whatever the host presents meanwhile (rule R333). -/
abbrev CommandSteps (ps : List Pins) : Prop := ps.length = Config.stepsPerCommand ∧ NoReset ps

/-- The input ports of a command at its accepting edge. -/
abbrev presentPins (i : Instr) : Pins := .present (encode i).1 (encode i).2

/-- The command-level machine: a command acts at once in IDLE and never in any other state (rules R101, R254). -/
def commandLevelStep (s : State) (i : Instr) : State :=
  if s.st = .idle then commandEffect i s else s

end Sys2Proof.Machine
end

