-- ==== Sys2Proof/Certificates/Slice0/Obligations.lean ====
section
/-! DEFINITION. The statements for the provers. Each docstring names the rules of spec/ it formalises. Every statement about
the engine holds for any host: the input ports of an edge are arbitrary unless a rule fixes them. -/

open Sys2Proof Sys2Proof.Machine

/-! ### Decoding and encoding (30_encoding.md) -/

/-- Rule R104: the three words of the table decode to their commands with the whole operand, and every other word is illegal. -/
def Obligations.DecodeClassifiesEveryWord : Prop :=
  ∀ (w : CmdWord) (d : Block),
    (w = 0x01#8 → decode w d = .ok (.ldkey d)) ∧
    (w = 0x02#8 → decode w d = .ok (.enc d)) ∧
    (w = 0x03#8 → decode w d = .ok (.dec d)) ∧
    (w ≠ 0x01#8 → w ≠ 0x02#8 → w ≠ 0x03#8 → ∃ e, decode w d = .error e)

/-- Rules R102 to R104: a presented word and operand decode to a command exactly when they are its encoding, so no bit of
either is dropped; in particular decoding an encoded command gives it back. -/
def Obligations.DecodeInvertsEncode : Prop :=
  ∀ (w : CmdWord) (d : Block) (i : Instr), decode w d = .ok i ↔ encode i = (w, d)

/-- The words of the table in 95_test_vectors.md section 3.6 decode as it says. -/
def Obligations.TableWordsDecodeAsListed : Prop :=
  decodeTableWord 8 0x01 = some (.ldkey 0) ∧ decodeTableWord 8 0x02 = some (.enc 0) ∧
  decodeTableWord 8 0x03 = some (.dec 0) ∧
  ∀ w ∈ [0x00, 0x04, 0x05, 0x06, 0x07, 0x41, 0x81, 0x82, 0xFC, 0xFF], decodeTableWord 8 w = none

/-! ### Byte order and bit addressing (20_memory.md, 41_bit_permutation.md) -/

/-- Rule R72: byte `j` of an `n`-bit value is bits `[n-1-8j : n-8-8j]`, position `p` is bit `n-1-p`, and the value is read back from
its bytes. -/
def Obligations.BytesHoldPositionsMsbFirst : Prop :=
  ∀ (N : Nat) (v : BitVec (8 * N)), (bytesOf v).length = N ∧
    (∀ j, j < N → (bytesOf v)[j]? = some (v.extractLsb' (8 * N - 8 - 8 * j) 8)) ∧
    (∀ p, p < 8 * N → pos v p = v.getLsbD (8 * N - 1 - p)) ∧
    wordOfBytes (8 * N) (bytesOf v) = v

/-- An inference the spec marks as its own (R162, "[derived: from rules R160, R161 ...]"): on the bytes of a word, `get_bit` reads the
word's position and `set_bit` sets it and no other. -/
def Obligations.BitAddressingHasAWordForm : Prop :=
  ∀ (N : Nat) (v : BitVec (8 * N)) (p : Nat) (x : Bool), p < 8 * N →
    getBit (bytesOf v) p = .ok (pos v p) ∧
    ∃ v' : BitVec (8 * N), setBit (bytesOf v) p x = .ok (bytesOf v') ∧ pos v' p = x ∧ ∀ q, q ≠ p → pos v' q = pos v q

/-- Rules R160 and R161: inside the sequence `get_bit` is the bit at its position, most significant bit of byte 0 first, and `set_bit`
replaces that bit of that byte and leaves every other bit; outside, both are the BitRange fault. -/
def Obligations.BitAddressingReadsAndSetsOneBit : Prop :=
  ∀ (data : List Byte) (p : Nat) (x : Bool),
    (∀ b, data[p / 8]? = some b →
      getBit data p = .ok (pos b (p % 8)) ∧
      ∃ b', setBit data p x = .ok (data.set (p / 8) b') ∧ pos b' (p % 8) = x ∧
        ∀ q, q ≠ p % 8 → pos b' q = pos b q) ∧
    (8 * data.length ≤ p →
      getBit data p = .error (.bitRange p data.length) ∧ setBit data p x = .error (.bitRange p data.length))

/-- Rule R168: the three laws of bit addressing. -/
def Obligations.SetBitThenGetBit : Prop :=
  ∀ (data : List Byte) (p : Nat) (x : Bool), p < 8 * data.length →
    (∃ b, getBit data p = .ok b ∧ setBit data p b = .ok data) ∧
    ∃ data', setBit data p x = .ok data' ∧ data'.length = data.length ∧ getBit data' p = .ok x ∧
      ∀ q, q < 8 * data.length → q ≠ p → getBit data' q = getBit data q

/-- 41_bit_permutation.md sections 1 and 2 (R167): a position outside the sequence, or a table entry outside `[1, n]`, is the BitRange fault in every form and gives no
value; a table in range never reaches it. That the word form names `n div 8` as the number of bytes, and the byte form the length of its
input for a table entry 0, is the model's choice (DESIGN CHOICE, notes/assumptions/8.md). -/
def Obligations.OutOfRangeIsBitRange : Prop :=
  (∀ (data : List Byte) (p : Nat) (x : Bool), 8 * data.length ≤ p →
    getBit data p = .error (.bitRange p data.length) ∧ setBit data p x = .error (.bitRange p data.length)) ∧
  (∀ (n : Nat) (v : BitVec n) (T : List Nat), (∃ t ∈ T, t < 1 ∨ n < t) →
    ∃ q, permuteChecked T v = .error (.bitRange q (n / 8))) ∧
  (∀ (data : List Byte) (T : List Nat), (∃ t ∈ T, t < 1 ∨ 8 * data.length < t) →
    ∃ q, permuteBytes data T = .error (.bitRange q data.length)) ∧
  ∀ (n m : Nat) (T : Table n m) (v : BitVec n),
    ∃ w, permuteChecked T.entries v = .ok w ∧ w.toNat = (permute T v).toNat

/-- Rule R163: position `i` of the result is position `T[i]-1` of the input, for every entry of every table. -/
def Obligations.PermutePicksEachEntry : Prop :=
  ∀ (n m : Nat) (T : Table n m) (v : BitVec n) (i : Nat) (h : i < T.entries.length),
    pos (permute T v) i = pos v (T.entries[i] - 1)

/-- An inference the spec marks as its own (R164, "[derived: from rules R160, R161, R163 ...]"): for tables whose widths are whole
bytes, as all six have, the source's byte form is the word form. -/
def Obligations.ByteFormIsWordForm : Prop :=
  ∀ (N M : Nat) (T : Table (8 * N) (8 * M)) (v : BitVec (8 * N)),
    permuteBytes (bytesOf v) T.entries = .ok (bytesOf (permute T v))

/-- An inference the spec marks as its own (R169, "[derived: from rule R163 ...]"): two tables in sequence are one table, with
`W[i] = T[U[i]-1]`. -/
def Obligations.PermutationsCompose : Prop :=
  ∀ (n m k : Nat) (T : Table n m) (U : Table m k),
    ∃ W : Table n k, W.entries = composeEntries U.entries T.entries ∧
      ∀ v : BitVec n, permute U (permute T v) = permute W v

/-- 40_tables.md section 2, under R132: FP undoes IP on every 64-bit value; and IP undoes FP (95_test_vectors.md section 2.1). -/
def Obligations.FinalPermutationUndoesInitial : Prop :=
  ∀ x : Block, permute fpTable (permute ipTable x) = x ∧ permute ipTable (permute fpTable x) = x

/-- What 40_tables.md says of its tables beside their entries (much of it marked "[derived: from this table]"): what PC1 and PC2 leave
out, which halves PC2 reads, that P and every S-box row are permutations, and the rotations' amounts and sum. -/
def Obligations.FixedTablesHaveTheirShapes : Prop :=
  ((List.range 65).filter fun t => t ≠ 0 ∧ t ∉ pc1Table.entries) = [8, 16, 24, 32, 40, 48, 56, 64] ∧
  ((List.range 57).filter fun t => t ≠ 0 ∧ t ∉ pc2Table.entries) = [9, 18, 22, 25, 35, 38, 43, 54] ∧
  (∀ t ∈ pc2Table.entries.take 24, t ≤ 28) ∧ (∀ t ∈ pc2Table.entries.drop 24, 29 ≤ t) ∧
  (∀ t ∈ (List.range 33).drop 1, t ∈ pTable.entries) ∧
  (∀ k : Round, rotAmount k = 1 ∨ rotAmount k = 2) ∧ rotTable.entries.sum = 28 ∧
  ∀ (j : Fin 8) (row : Fin 4), ∀ e ∈ List.range 16, e ∈ ((sboxTable j).entries.drop (16 * row)).take 16

/-! ### Key schedule (42_key_schedule.md) -/

/-- Rule R183: position `p` of the rotated half is position `(p + s) mod 28`, for both amounts. -/
def Obligations.RotationMovesTowardPositionZero : Prop :=
  ∀ (x : KeyHalf) (s : Nat), s = 1 ∨ s = 2 → ∀ p, p < 28 → pos (rotl28 x s) p = pos x ((p + s) % 28)

/-- Rule R187: rotation is cumulative. After LDKEY's acceptance and the KS step of round `k`, `C` and `D` are the PC1 halves rotated left by
`ROT[0] + ... + ROT[k]`, whatever the engine held and whatever the host presents meanwhile. -/
def Obligations.RotationIsCumulative : Prop :=
  ∀ (K : Block) (s : State) (k : Round) (ps : List Pins), s.st = .idle → NoReset ps → ps.length = k.toNat + 1 →
    ∃ t u, exec (.ldkey K) s = .next t ∧ runEdges ps t = .next u ∧
      u.c = ((permute pc1Table K).extractLsb' 28 28).rotateLeft (rotTable.entries.take (k.toNat + 1)).sum ∧
      u.d = ((permute pc1Table K).extractLsb' 0 28).rotateLeft (rotTable.entries.take (k.toNat + 1)).sum

/-- Rule R182: LDKEY presented in IDLE writes exactly these registers, whatever the engine held; it raises nothing. -/
def Obligations.LdkeyAcceptanceWrites : Prop :=
  ∀ (K : Block) (s : State), s.st = .idle →
    exec (.ldkey K) s = .next { s with
      key := K
      c := (permute pc1Table K).extractLsb' 28 28
      d := (permute pc1Table K).extractLsb' 0 28
      rnd := 0
      keyValid := false
      st := .ks }

/-- Rule R185: a KS step, with any host that does not reset, accepts no command and writes exactly these registers. -/
def Obligations.KeyScheduleStepWrites : Prop :=
  ∀ (p : Pins) (s : State), p.rst = false → s.st = .ks →
    let c' := rotl28 s.c (rotAmount s.rnd)
    let d' := rotl28 s.d (rotAmount s.rnd)
    let s' := { s with c := c', d := d', sk := writeSubkey s.sk s.rnd (permute pc2Table (c' ++ d')) }
    accepts p s = false ∧
    (s.rnd = 15 → edge p s = .next { s' with keyValid := true, st := .idle }) ∧
    (s.rnd ≠ 15 → edge p s = .next { s' with rnd := s.rnd + 1 })

/-- An inference the spec marks as its own (R188, "[derived: from rules R181, R182, R185 and R187 ...]"): after LDKEY's acceptance and `k + 1` KS steps, the subkeys of rounds 0 to `k` are those of the schedule,
whatever the subkey file held and whatever the host presents meanwhile. -/
def Obligations.KeyScheduleStepsComputeTheSchedule : Prop :=
  ∀ (K : Block) (s : State) (k : Round) (ps : List Pins), s.st = .idle → NoReset ps → ps.length = k.toNat + 1 →
    ∃ t u, exec (.ldkey K) s = .next t ∧ runEdges ps t = .next u ∧
      ∀ j : Round, j ≤ k → readSubkey u.sk j = readSubkey (keySchedule K) j

/-- 42_key_schedule.md sections 1 and 2 (the net effect in R180; R186, R188 and R193 are marked "[derived]"): LDKEY completes from every IDLE state for every key; its acceptance and sixteen further edges leave exactly
this, everything else unchanged. -/
def Obligations.LdkeyCompletes : Prop :=
  ∀ (K : Block) (s : State) (ps : List Pins), s.st = .idle → CommandSteps ps →
    ∃ t u, exec (.ldkey K) s = .next t ∧ runEdges ps t = .next u ∧
      u.c ++ u.d = permute pc1Table K ∧ u.cmdReady = true ∧ u.busy = false ∧
      u = { s with key := K, sk := keySchedule K, c := u.c, d := u.d, keyValid := true, rnd := 15, st := .idle }

/-- An inference the spec marks as its own (R189, "[derived: from rule R181 ...]"): keys that differ only in the eight parity positions
give the same subkeys and the same results. -/
def Obligations.ParityBitsAreIgnored : Prop :=
  ∀ K K' : Block, (∀ p, p < 64 → p % 8 ≠ 7 → pos K p = pos K' p) →
    keySchedule K = keySchedule K' ∧ ∀ b, encrypt K b = encrypt K' b ∧ decrypt K b = decrypt K' b

/-- An inference the spec marks as its own (R190, "[derived: from rules R181 and R183]"): two schedules are equal exactly when the keys
agree on the 56 positions PC1 reads. -/
def Obligations.SchedulesAgreeIffReducedKeysAgree : Prop :=
  ∀ K K' : Block, keySchedule K = keySchedule K' ↔ ∀ p, p < 64 → p % 8 ≠ 7 → pos K p = pos K' p

/-- An inference the spec marks as its own (R190, "[derived: from rules R181 and R183]"): a key whose halves are each all zeros or all ones gives sixteen equal subkeys. -/
def Obligations.ConstantHalvesGiveEqualSubkeys : Prop :=
  ∀ K : Block,
    ((splitKey (permute pc1Table K)).1 = 0 ∨ (splitKey (permute pc1Table K)).1 = BitVec.allOnes 28) →
    ((splitKey (permute pc1Table K)).2 = 0 ∨ (splitKey (permute pc1Table K)).2 = BitVec.allOnes 28) →
    ∀ i j : Round, readSubkey (keySchedule K) i = readSubkey (keySchedule K) j

/-! ### Round function (43_round_function.md) -/

/-- An inference the spec marks as its own (R212, "[derived: from rule R211 ...]"): each 6-bit group of the expansion sees its own nibble and the adjacent bit on each side, modulo 32. -/
def Obligations.ExpansionSeesNeighbourBits : Prop :=
  ∀ (r : Half) (j i : Nat), j < 8 → i < 6 → pos (permute eTable r) (6 * j + i) = pos r ((4 * j + i + 31) % 32)

/-- Rule R214: the S-box entry is at `row*16 + col`, the row from the outer bits and the column from the inner ones. -/
def Obligations.SboxReadsRowAndColumn : Prop :=
  ∀ (j : Fin 8) (b : BitVec 6),
    (sboxTable j).entries[16 * (2 * (pos b 0).toNat + (pos b 5).toNat)
      + 8 * (pos b 1).toNat + 4 * (pos b 2).toNat + 2 * (pos b 3).toNat + (pos b 4).toNat]? = some (sbox j b).toNat

/-- Rules R211, R213, R215 and R216: position `4j + i` of the substitution output is position `i` of group `j`'s nibble, whose group is positions
`6j .. 6j+5` of the mixed value, and the round function is its permutation by P. -/
def Obligations.RoundFunctionJoinsNibbles : Prop :=
  ∀ (r : Half) (k : Subkey),
    roundF r k = permute pTable (substitute (permute eTable r ^^^ k)) ∧
    ∀ (x : BitVec 48) (j : Fin 8),
      (∀ i, i < 4 → pos (substitute x) (4 * j.val + i) = pos (sbox j (sboxGroup x j)) i) ∧
      ∀ i, i < 6 → pos (sboxGroup x j) i = pos x (6 * j.val + i)

/-! ### Cipher (44_feistel_driver.md) -/

/-- Rule R244: ENC or DEC presented in IDLE with a cipher instance writes exactly these registers. -/
def Obligations.BlockAcceptanceWrites : Prop :=
  ∀ (b : Block) (s : State), s.st = .idle → s.keyValid = true →
    let s' := { s with
      l := (permute ipTable b).extractLsb' 32 32
      r := (permute ipTable b).extractLsb' 0 32
      rnd := 0
      doutValid := false
      st := .run }
    exec (.enc b) s = .next { s' with dir := false } ∧ exec (.dec b) s = .next { s' with dir := true }

/-- Rule R245: a RUN step, with any host that does not reset, writes exactly these registers. -/
def Obligations.RunStepWrites : Prop :=
  ∀ (p : Pins) (s : State), p.rst = false → s.st = .run →
    let k : Round := if s.dir then 15 - s.rnd else s.rnd
    let l' := s.r
    let r' := s.l ^^^ roundF s.r (readSubkey s.sk k)
    (s.rnd = 15 → edge p s = .next
      { s with l := l', r := r', dout := permute fpTable (r' ++ l'), doutValid := true, st := .idle }) ∧
    (s.rnd ≠ 15 → edge p s = .next { s with l := l', r := r', rnd := s.rnd + 1 })

/-- 44_feistel_driver.md sections 3 and 4 (the net effect in R250; R247 is marked "[derived]"): ENC completes from every IDLE state with a cipher instance for every block; the result is
`Crypt(SK, B, 0)`, which is `Encrypt(KEY, B)` when the subkeys are those of `KEY`; everything else is unchanged but the half
states. -/
def Obligations.EncCompletes : Prop :=
  ∀ (b : Block) (s : State) (ps : List Pins), s.st = .idle → s.keyValid = true → CommandSteps ps →
    ∃ t u, exec (.enc b) s = .next t ∧ runEdges ps t = .next u ∧
      u.dout = crypt s.sk b false ∧ (s.sk = keySchedule s.key → u.dout = encrypt s.key b) ∧ u.cmdReady = true ∧
      u = { s with
        dout := u.dout, doutValid := true, dir := false, rnd := 15, st := .idle
        l := (halfStates s.sk false (startHalves b) 16).1, r := (halfStates s.sk false (startHalves b) 16).2 }

/-- 44_feistel_driver.md sections 3 and 4 (the net effect in R251; R247 is marked "[derived]"): DEC completes likewise, the subkeys taken in reverse order from the stored file. -/
def Obligations.DecCompletes : Prop :=
  ∀ (b : Block) (s : State) (ps : List Pins), s.st = .idle → s.keyValid = true → CommandSteps ps →
    ∃ t u, exec (.dec b) s = .next t ∧ runEdges ps t = .next u ∧
      u.dout = crypt s.sk b true ∧ (s.sk = keySchedule s.key → u.dout = decrypt s.key b) ∧ u.cmdReady = true ∧
      u = { s with
        dout := u.dout, doutValid := true, dir := true, rnd := 15, st := .idle
        l := (halfStates s.sk true (startHalves b) 16).1, r := (halfStates s.sk true (startHalves b) 16).2 }

/-- The source's defining property, which the spec derives (R248, "[derived: from rules R241, R243, R246 ...]"): decryption undoes encryption and encryption undoes decryption, for every key and block. -/
def Obligations.DecryptUndoesEncrypt : Prop :=
  ∀ K b : Block, decrypt K (encrypt K b) = b ∧ encrypt K (decrypt K b) = b

/-- An inference the spec marks as its own (R249, "[derived: from rules R241, R243 and R246]"): the half states of DEC on a ciphertext are those of ENC in reverse with the halves swapped, for any subkeys. -/
def Obligations.DecHalfStatesReverseEnc : Prop :=
  ∀ (ks : SubkeyFile) (b : Block) (i : Nat), i ≤ 16 →
    halfStates ks true (startHalves (crypt ks b false)) i = (halfStates ks false (startHalves b) (16 - i)).swap

/-- An inference the spec marks as its own (R256, "[derived: from rules R241 and R248 ...]"): with sixteen equal subkeys ENC and DEC coincide, and ENC applied twice returns the block. -/
def Obligations.EqualSubkeysMakeEncAnInvolution : Prop :=
  ∀ ks : SubkeyFile, (∀ i j : Round, readSubkey ks i = readSubkey ks j) →
    ∀ b : Block, crypt ks b false = crypt ks b true ∧ crypt ks (crypt ks b false) false = b

/-- The boot sequence of R324 ("[derived: from rule R320 ...]") with the round trip, at the ports: from any state at all, a reset edge, LDKEY, ENC and a DEC of the result leave the plaintext on
`dout`, whatever the host does at the edges between. -/
def Obligations.ResetLoadEncDecReturnsTheBlock : Prop :=
  ∀ (s : State) (p : Pins) (K b : Block) (ps₁ ps₂ ps₃ : List Pins),
    p.rst = true → CommandSteps ps₁ → CommandSteps ps₂ → CommandSteps ps₃ →
    ∃ t u, runEdges ([p] ++ presentPins (.ldkey K) :: ps₁ ++ presentPins (.enc b) :: ps₂) s = .next t ∧
      t.outputs = { cmdReady := true, dout := encrypt K b, status := 0x06#8 } ∧
      runEdges (presentPins (.dec t.dout) :: ps₃) t = .next u ∧
      u.outputs = { cmdReady := true, dout := b, status := 0x06#8 }

/-- An inference the spec marks as its own (R254, "[derived: from rules R247 and R240 ...]"): the cycle-level machine refines the command-level one. For every sequence of commands, each presented and then given
sixteen edges at which the host does anything but reset, it ends where the command-level machine ends: a completed command or a
lasting fault. -/
def Obligations.EdgesRefineCommandLevel : Prop :=
  ∀ (cmds : List (Instr × List Pins)) (s : State), s.st = .idle ∨ s.st = .fault →
    (∀ c ∈ cmds, CommandSteps c.2) →
    runEdges (cmds.flatMap fun c => presentPins c.1 :: c.2) s = .next ((cmds.map Prod.fst).foldl commandLevelStep s)

/-! ### Faults (60_exceptions.md) -/

/-- Rules R283 and R284, by the fault entry of R281: an accepted illegal word writes ERR `01`, an ENC or DEC accepted without a cipher
instance writes ERR `10`, each with `st`, and nothing else; STATUS then shows FAULT, no BUSY and the code, and `cmd_ready` is 0. -/
def Obligations.ViolationsRaiseTheirFaults : Prop :=
  (∀ (p : Pins) (s : State), s.st = .idle → p.rst = false → p.cmdValid = true →
    p.cmdWord ∉ [0x01#8, 0x02#8, 0x03#8] → edge p s = .next { s with err := 0b01#2, st := .fault }) ∧
  (∀ (b : Block) (s : State), s.st = .idle → s.keyValid = false →
    exec (.enc b) s = .next { s with err := 0b10#2, st := .fault } ∧
    exec (.dec b) s = .next { s with err := 0b10#2, st := .fault }) ∧
  ∀ (s : State) (code : BitVec 2),
    let t := { s with err := code, st := .fault }
    t.cmdReady = false ∧ t.status.getLsbD 3 = true ∧ t.status.getLsbD 0 = false ∧ t.status.extractLsb' 4 2 = code

/-- Rule R291: in FAULT no command is accepted and nothing changes however long the host presents anything without a reset, and a reset edge
leaves FAULT with `ERR`, `KEY_VALID` and `DOUT_VALID` cleared. -/
def Obligations.FaultLastsUntilReset : Prop :=
  ∀ (s : State) (ps : List Pins) (p : Pins), s.st = .fault → NoReset ps → p.rst = true →
    s.cmdReady = false ∧ runEdges ps s = .next s ∧
    ∃ t, runEdges (ps ++ [p]) s = .next t ∧ t.st = .idle ∧ t.err = 0b00#2 ∧ t.keyValid = false ∧ t.doutValid = false

/-- An inference the spec marks as its own (R288, "[derived: from rules R283, R284 ...]"): FAULT is entered only by an accepted illegal word, with code ILLEGAL_CMD, or by an ENC or DEC accepted with
`KEY_VALID = 0`, with code NO_KEY. -/
def Obligations.OnlyTwoCausesOfFault : Prop :=
  ∀ (p : Pins) (s t : State), edge p s = .next t → s.st ≠ .fault → t.st = .fault →
    s.st = .idle ∧ p.rst = false ∧ p.cmdValid = true ∧
    ((p.cmdWord ∉ [0x01#8, 0x02#8, 0x03#8] ∧ t = { s with err := 0b01#2, st := .fault }) ∨
     ((p.cmdWord = 0x02#8 ∨ p.cmdWord = 0x03#8) ∧ s.keyValid = false ∧ t = { s with err := 0b10#2, st := .fault }))

/-- For the model as a whole (60_exceptions.md section 2, "the algorithm is total over its defined domain"): every step of every state
answers a next state; no step stops. -/
def Obligations.EveryStepAnswersNext : Prop :=
  ∀ s : State, ∃ t, step s = .next t

/-! ### Reset (70_reset_and_hazards.md) -/

/-- Rule R320: a reset edge overrides everything in every state, accepts no command and writes exactly these registers. -/
def Obligations.ResetEdgeWrites : Prop :=
  ∀ (p : Pins) (s : State), p.rst = true →
    accepts p s = false ∧ edge p s = .next { s with
      st := .idle, rnd := 0, dir := false, keyValid := false
      dout := 0x0000000000000000#64, doutValid := false, err := 0b00#2 }

/-- An inference the spec marks as its own (R321, "[derived: from rule R320 ...]"): what the host sees after a reset edge, from any state, and in the model's reset state. -/
def Obligations.OutputsAfterReset : Prop :=
  State.reset.outputs = { cmdReady := true, dout := 0, status := 0x00#8 } ∧
  ∀ (p : Pins) (s : State), p.rst = true →
    ∃ t, edge p s = .next t ∧ t.outputs = { cmdReady := true, dout := 0, status := 0x00#8 }

/-- An inference the spec marks as its own (R331, "[derived: from rule R320]"): a reset inside a command, after any edges of any host, abandons it; an ENC or DEC that follows raises NO_KEY. -/
def Obligations.ResetInsideCommandNeedsNewKey : Prop :=
  ∀ (s : State) (ps : List Pins) (p : Pins) (i : Instr) (b : Block), p.rst = true → i = .enc b ∨ i = .dec b →
    ∃ t u, runEdges (ps ++ [p]) s = .next t ∧ t.keyValid = false ∧ t.dout = 0 ∧ t.doutValid = false ∧
      runEdges (ps ++ [p, presentPins i]) s = .next u ∧ u.outputs = { cmdReady := false, dout := 0, status := 0x28#8 }

/-- 93_implementation_defined.md U1 ("A proof that a result is independent of the draw is the check"): after a reset edge from any two states, whatever `KEY`, `SK`, `C`, `D`, `L` and `R`
held, every later output is the same for every host. No output rests on the values the model names for them
(notes/assumptions/1.md). -/
def Obligations.OutputsIgnoreUnresetRegisters : Prop :=
  ∀ (s t : State) (p : Pins) (ps : List Pins), p.rst = true →
    ∃ s' t', runEdges (p :: ps) s = .next s' ∧ runEdges (p :: ps) t = .next t' ∧ s'.outputs = t'.outputs

/-! ### The engine as a whole (10_state.md, 20_memory.md, 44_feistel_driver.md) -/

/-- Rule R43 and the STATUS table of 10_state.md section 2: the fields of STATUS and `cmd_ready` in every state. -/
def Obligations.StatusFieldsShowRegisters : Prop :=
  ∀ s : State,
    (s.status.getLsbD 0 = true ↔ s.st = .ks ∨ s.st = .run) ∧
    s.status.getLsbD 1 = s.keyValid ∧ s.status.getLsbD 2 = s.doutValid ∧
    (s.status.getLsbD 3 = true ↔ s.st = .fault) ∧
    s.status.extractLsb' 4 2 = s.err ∧ s.status.extractLsb' 6 2 = 0 ∧
    (s.cmdReady = true ↔ s.st = .idle) ∧
    (s.cmdReady = true ↔ s.status.getLsbD 0 = false ∧ s.status.getLsbD 3 = false)

/-- The model's invariant (Safety.lean, from 10_state.md sections 1, 2 and 4 and 95_test_vectors.md section 3.6) holds after a reset edge from any
state, and in the model's reset state. -/
def Obligations.ResetMeetsInvariant : Prop :=
  Inv State.reset ∧ ∀ (p : Pins) (s t : State), p.rst = true → edge p s = .next t → Inv t

/-- Every step keeps the invariant, from every state that has it: so does every edge with any input ports. -/
def Obligations.StepKeepsInvariant : Prop :=
  ∀ s t : State, Inv s → (step s = .next t ∨ ∃ p, edge p s = .next t) → Inv t

/-- 95_test_vectors.md section 3.6: in a state with the invariant STATUS has one of ten values, so BUSY and FAULT are never both 1 and
FAULT = 1 iff ERR is `01` or `10` (10_state.md section 2, "[derived: from rules R36, R41 ...]"). -/
def Obligations.StatusTakesTenValues : Prop :=
  ∀ s : State, Inv s → s.status ∈ reachableStatus ∧
    ¬(s.status.getLsbD 0 = true ∧ s.status.getLsbD 3 = true) ∧
    (s.status.getLsbD 3 = true ↔ s.err = 0b01#2 ∨ s.err = 0b10#2)

/-- 10_state.md section 1, the column "written by": at an edge without a reset each of the thirteen registers changes only where its row
names a writer. -/
def Obligations.EachRegisterHasItsWriters : Prop :=
  ∀ (p : Pins) (s t : State), p.rst = false → edge p s = .next t →
    let loads := accepts p s = true ∧ p.cmdWord = 0x01#8
    let crypts := accepts p s = true ∧ (p.cmdWord = 0x02#8 ∨ p.cmdWord = 0x03#8) ∧ s.keyValid = true
    let last := s.rnd = 15
    (t.key ≠ s.key → loads) ∧
    (∀ k, readSubkey t.sk k ≠ readSubkey s.sk k → s.st = .ks ∧ s.rnd = k) ∧
    (t.keyValid ≠ s.keyValid → loads ∧ t.keyValid = false ∨ s.st = .ks ∧ last ∧ t.keyValid = true) ∧
    (t.c ≠ s.c ∨ t.d ≠ s.d → loads ∨ s.st = .ks) ∧
    (t.l ≠ s.l ∨ t.r ≠ s.r → crypts ∨ s.st = .run) ∧
    (t.st ≠ s.st → accepts p s = true ∨ (s.st = .ks ∨ s.st = .run) ∧ last) ∧
    (t.rnd ≠ s.rnd → loads ∨ crypts ∨ s.st = .ks ∨ s.st = .run) ∧
    (t.dir ≠ s.dir → crypts) ∧
    (t.dout ≠ s.dout → s.st = .run ∧ last) ∧
    (t.doutValid ≠ s.doutValid → crypts ∧ t.doutValid = false ∨ s.st = .run ∧ last ∧ t.doutValid = true) ∧
    (t.err ≠ s.err → accepts p s = true ∧ t.st = .fault)

/-- An inference the spec marks as its own (R48, "[derived: from rules R39, R42 ...]"): two states that agree on what the ports show, on `st` and on `rnd` show the same at the next edge, whatever `KEY`, `SK`, `C`,
`D`, `L`, `R` and `dir` hold, unless that edge is the last RUN step, which delivers a result. -/
def Obligations.HiddenRegistersStayHidden : Prop :=
  ∀ (p : Pins) (s t : State), s.outputs = t.outputs → s.st = t.st → s.rnd = t.rnd →
    ¬(s.st = .run ∧ s.rnd = 15) →
    ∃ s' t', edge p s = .next s' ∧ edge p t = .next t' ∧ s'.outputs = t'.outputs ∧ s'.st = t'.st ∧ s'.rnd = t'.rnd

/-- 30_encoding.md section 1 (R101): a command is accepted exactly when `rst = 0`, `cmd_valid = 1` and `cmd_ready = 1`; then the edge is the decoded command's
acceptance; otherwise the values of the command inputs do not matter. The last clause is the model's reading, DEDUCED
(notes/assumptions/5.md): a command given to `exec` while the engine is not ready changes nothing, because it waits; R101 itself speaks
of edges, at which a running command steps on. -/
def Obligations.AcceptanceIsTheHandshake : Prop :=
  ∀ (p : Pins) (s : State),
    (accepts p s = true ↔ p.rst = false ∧ p.cmdValid = true ∧ s.st = .idle) ∧
    (accepts p s = true → ∀ i, decode p.cmdWord p.cmdData = .ok i → edge p s = exec i s) ∧
    (∀ q : Pins, accepts p s = false → accepts q s = false → p.rst = q.rst → edge p s = edge q s) ∧
    ∀ i : Instr, s.cmdReady = false → exec i s = .next s

/-- Rule R240: the FSM table, row by row, for every state and every value of the input ports, with `cmd_ready` in each row. -/
def Obligations.FsmTableRows : Prop :=
  ∀ (p : Pins) (s : State),
    (s.cmdReady = true ↔ s.st = .idle) ∧
    (p.rst = true → edge p s = .next (resetEdge s)) ∧
    (p.rst = false →
      (s.st = .idle → p.cmdValid = false → edge p s = .next s) ∧
      (s.st = .idle → p.cmdValid = true → ∀ e, decode p.cmdWord p.cmdData = .error e →
        edge p s = .next (raiseFault .illegalCmd s)) ∧
      (s.st = .idle → p.cmdValid = true → ∀ K, decode p.cmdWord p.cmdData = .ok (.ldkey K) →
        edge p s = .next (acceptKey K s)) ∧
      (s.st = .idle → p.cmdValid = true → ∀ b (dir : Bool),
        decode p.cmdWord p.cmdData = .ok (if dir then .dec b else .enc b) →
        edge p s = .next (if s.keyValid then acceptBlock dir b s else raiseFault .noKey s)) ∧
      (s.st = .ks → edge p s = .next (ksStep s)) ∧
      (s.st = .run → edge p s = .next (runStep s)) ∧
      (s.st = .fault → edge p s = .next s))

/-- 70_reset_and_hazards.md section 4 and 44_feistel_driver.md section 5 (R255 is marked "[derived]"): a command accepted in IDLE that does not fault keeps the engine busy and not ready for exactly sixteen further
edges, whatever the key, the block and the host. -/
def Obligations.CommandTakesSeventeenEdges : Prop :=
  ∀ (i : Instr) (s : State) (ps : List Pins), s.st = .idle → (∀ b, i = .enc b ∨ i = .dec b → s.keyValid = true) →
    NoReset ps → ps.length ≤ 16 →
    ∃ u, runEdges (presentPins i :: ps) s = .next u ∧
      (ps.length < 16 → u.cmdReady = false ∧ u.busy = true) ∧ (ps.length = 16 → u.cmdReady = true ∧ u.busy = false)

/-! ### The step and the host (30_encoding.md) -/

/-- A step runs the decoded command: when the host's next action presents a word and operand that decode to `i` and the engine is IDLE, the
step is `exec i` and the host's line is done. The second clause is about the model's own `withFetchWord`, a DESIGN CHOICE
(notes/assumptions/3.md): it presents the table word, the operand in bits 71:8, to an engine it sets to IDLE, and the step is `exec` of
the command the decoder reads from that word. The script is the model's own field too (notes/assumptions/2.md). -/
def Obligations.StepRunsTheDecodedCommand : Prop :=
  (∀ (s t : State) (w : CmdWord) (d : Block) (rest : List HostAction) (i : Instr),
    s.st = .idle → s.script = .command w d :: rest → decode w d = .ok i → exec i s = .next t →
    step s = .next { t with script := rest }) ∧
  ∀ (s t : State) (nbits w : Nat) (i : Instr),
    decodeTableWord nbits w = some i → exec i { s with st := .idle } = .next t →
    step (s.withFetchWord nbits w) = .next t

/-- Every run of steps is a run of edges for some input ports of the host, so the statements about edges reach every run: `n` steps leave
the engine's registers as `n` edges do. The host's side of the state is the model's own (DESIGN CHOICE, notes/assumptions/2.md). -/
def Obligations.StepsAreEdgesOfTheHost : Prop :=
  ∀ (n : Nat) (s : State), ∃ (ps : List Pins) (t u : State), ps.length = n ∧
    Host.Core.run Sys2Proof.core n s = .next t ∧ runEdges ps s = .next u ∧
    t = { u with script := t.script, reads := t.reads }

/-- An inference the spec marks as its own (R330, "[derived: from 30_encoding.md rule R101 ...]"): a command line presented while the engine is busy waits through the running command's remaining steps, is not
dropped, and is accepted at the first edge after them. -/
def Obligations.CommandLineWaitsForReady : Prop :=
  ∀ (s : State) (w : CmdWord) (d : Block) (rest : List HostAction),
    s.st = .ks ∨ s.st = .run → s.script = .command w d :: rest →
    ∃ t u, Host.Core.run Sys2Proof.core (16 - s.rnd.toNat) s = .next t ∧ t.st = .idle ∧ t.script = s.script ∧
      step t = .next u ∧ u.script = rest

/-- 60_exceptions.md section 4: a host that presents a command to an engine in FAULT waits forever: no number of steps changes anything. -/
def Obligations.CommandLineInFaultWaitsForever : Prop :=
  ∀ (n : Nat) (s : State) (w : CmdWord) (d : Block) (rest : List HostAction),
    s.st = .fault → s.script = .command w d :: rest → Host.Core.run Sys2Proof.core n s = .next s

/-- 30_encoding.md section 4: which action each line of a script is, and what each action does. LDKEY, ENC and DEC lines present the words
`0x01`, `0x02` and `0x03` with their operand, a RAW line its own word. A RESET is one reset edge; a WAIT drives no command and is over
after an edge that leaves the engine ready or faulted; a command line presents its word and operand, is over at the edge that accepts
it and stays at every other, so in FAULT it stays for ever. That a READ takes no edge, samples before the next one and keeps
`cmd_ready` too, and that a WAIT takes at least one edge, is the model's reading, DEDUCED (notes/assumptions/7.md); the script as a
field of the state, and `drive`, which puts any values on the ports for one edge, are the model's choice (notes/assumptions/2.md). -/
def Obligations.HostActionsFollowTheScript : Prop :=
  (∀ (d : D64) (w : CmdWord),
    (ScriptLine.ldkey d).action = .command 0x01#8 d.value ∧ (ScriptLine.enc d).action = .command 0x02#8 d.value ∧
    (ScriptLine.dec d).action = .command 0x03#8 d.value ∧ (ScriptLine.raw w d).action = .command w d.value ∧
    ScriptLine.reset.action = .reset ∧ ScriptLine.wait.action = .wait ∧ ScriptLine.read.action = .read) ∧
  (∀ (lines : List ScriptLine) (s : State), loadScript lines s = { s with script := lines.map ScriptLine.action }) ∧
  ∀ (s : State) (rest : List HostAction),
    (s.script = .reset :: rest → step s = .next { resetEdge s with script := rest }) ∧
    (s.script = .wait :: rest → ∃ t, edge Pins.quiet s = .next t ∧
      step s = .next { t with script := if t.st = .idle ∨ t.st = .fault then rest else s.script }) ∧
    (s.script = .read :: rest → step s = step { s with script := rest, reads := s.reads ++ [s.outputs] }) ∧
    (∀ p : Pins, s.script = .drive p :: rest → ∃ t, edge p s = .next t ∧ step s = .next { t with script := rest }) ∧
    ∀ (w : CmdWord) (d : Block), s.script = .command w d :: rest →
      (s.st = .fault → step s = .next s) ∧
      ∃ t, edge (.present w d) s = .next t ∧
        step s = .next { t with script := if s.st = .idle then rest else s.script }

/-- 30_encoding.md section 4: the bracketed spelling of an operand puts byte 0 in bits 63:56 (section 2; 20_memory.md section 2) and the
hexadecimal spelling is the port value, so the two spell the same operand when they have the same bytes. 30_encoding.md section 3 and
60_exceptions.md section 2: a host adapter takes byte strings of exactly eight bytes and turns every other length away. -/
def Obligations.OperandSpellingsAgree : Prop :=
  (∀ bs : Vector Byte 8, bytesOf (D64.bytes bs).value = bs.toList) ∧
  (∀ v : Block, (D64.hex v).value = v) ∧
  (∀ (v : Block) (bs : Vector Byte 8), bytesOf v = bs.toList → (D64.hex v).value = (D64.bytes bs).value) ∧
  ∀ bs : List Byte, (bs.length = 8 → ∃ d, operandOfBytes bs = some d ∧ bytesOf d = bs) ∧
    (bs.length ≠ 8 → operandOfBytes bs = none)
end

