-- ==== Sys2Proof/Laws/Permute.lean ====
section
/-! SUPPORT. What the permutation engine does, position by position (41_bit_permutation.md rule R163). -/

namespace Sys2Proof.Machine

/-- Two values that agree on every position are equal. -/
theorem eq_of_pos {n : Nat} {v w : BitVec n} (h : ∀ p, p < n → pos v p = pos w p) : v = w :=
  BitVec.eq_of_getMsbD_eq h

/-- A position past the width reads as 0. -/
theorem pos_of_le {n : Nat} (v : BitVec n) {p : Nat} (h : n ≤ p) : pos v p = false := by
  simp [pos, BitVec.getMsbD, h]

/-- Every position of a permuted value, those past its width included. -/
theorem pos_permute {n m : Nat} (T : Table n m) (v : BitVec n) (i : Nat) :
    pos (permute T v) i = ((T.entries[i]?).map fun t => pos v (t - 1)).getD false := by
  simp [permute, pos]

/-- Position `i` of a permuted value, with the entry read without a bound. -/
theorem pos_permute_getD {n m : Nat} (T : Table n m) (v : BitVec n) {i : Nat} (h : i < m) :
    pos (permute T v) i = pos v (T.entries.getD i 0 - 1) := by
  have hl : i < T.entries.length := by rw [T.length_entries]; exact h
  simp [pos_permute, List.getElem?_eq_getElem hl]

/-- Every entry of a table is a 1-based input position. -/
theorem Table.entry_range {n m : Nat} (T : Table n m) {t : Nat} (h : t ∈ T.entries) : 1 ≤ t ∧ t ≤ n := by
  have hk := T.ok
  simp only [permTableOk, Bool.and_eq_true, List.all_eq_true, decide_eq_true_eq] at hk
  exact hk.2 t h

/-- A table's permutation reads only the positions its entries name. -/
theorem permute_congr {n m : Nat} (T : Table n m) {v w : BitVec n}
    (h : ∀ t ∈ T.entries, pos v (t - 1) = pos w (t - 1)) : permute T v = permute T w := by
  refine eq_of_pos fun i hi => ?_
  have hl : i < T.entries.length := by rw [T.length_entries]; exact hi
  simp only [pos_permute, List.getElem?_eq_getElem hl, Option.map_some, Option.getD_some]
  exact h _ (List.getElem_mem hl)

end Sys2Proof.Machine
end

