-- ==== Sys2Proof/Laws/BitAddr.lean ====
section
/-! SUPPORT. What bit addressing and the byte order do (41_bit_permutation.md rules R160, R161; 20_memory.md rule R72): the value
of each inside the range, bit by bit. -/

namespace Sys2Proof.Machine

theorem maskedBit (b : Byte) {k : Nat} (hk : k < 8) : ((b >>> (7 - k) &&& 1#8) == 1#8) = b.getLsbD (7 - k) := by
  interval_cases k <;> (revert b; decide +kernel)

/-- Inside the range `getBit` is a bit of one byte. -/
theorem getBit_of_lt {data : List Byte} {p : Nat} (h : p < 8 * data.length) :
    getBit data p = .ok ((data[p / 8]'(by omega)).getLsbD (7 - p % 8)) := by
  unfold getBit
  rw [dif_pos h]
  congr 1
  exact maskedBit _ (by omega)

/-- The byte `setBit` writes, bit by bit. -/
theorem setByte_bit (b : Byte) (x : Bool) {k j : Nat} (hk : k < 8) (hj : j < 8) :
    ((b &&& ~~~(1#8 <<< k)) ||| ((BitVec.ofBool x).setWidth 8 <<< k)).getLsbD j = if j = k then x else b.getLsbD j := by
  interval_cases k <;> interval_cases j <;> cases x <;> simp

/-- Inside the range `setBit` answers a sequence of the same length that differs in that bit alone. -/
theorem setBit_of_lt {data : List Byte} {p : Nat} (x : Bool) (h : p < 8 * data.length) :
    ∃ data', setBit data p x = .ok data' ∧ data'.length = data.length ∧
      ∀ q, q < 8 * data.length → getBit data' q = if q = p then .ok x else getBit data q := by
  refine ⟨_, by unfold setBit; rw [dif_pos h], by simp, ?_⟩
  intro q hq
  rw [getBit_of_lt (by simpa using hq), getBit_of_lt hq]
  by_cases hqp : q / 8 = p / 8
  · have := setByte_bit (data[p / 8]'(by omega)) x (k := 7 - p % 8) (j := 7 - q % 8) (by omega) (by omega)
    simp only [hqp, List.getElem_set_self, this]
    by_cases e : q = p
    · subst e; simp
    · rw [if_neg (by omega), if_neg e]
  · rw [if_neg (by rintro rfl; exact hqp rfl)]
    congr 2
    rw [List.getElem_set_ne]
    omega

/-- Two sequences of one length with the same bits are equal. -/
theorem bytes_ext {a b : List Byte} (hl : a.length = b.length)
    (h : ∀ q, q < 8 * a.length → getBit a q = getBit b q) : a = b := by
  refine List.ext_getElem hl fun j h1 h2 => ?_
  refine BitVec.eq_of_getLsbD_eq fun i hi => ?_
  have := h (8 * j + (7 - i)) (by omega)
  rw [getBit_of_lt (by omega), getBit_of_lt (by omega)] at this
  have e : (8 * j + (7 - i)) / 8 = j := by omega
  have e' : 7 - (8 * j + (7 - i)) % 8 = i := by omega
  simpa only [e, e', Except.ok.injEq] using this

@[simp] theorem bytesOf_length {N : Nat} (v : BitVec (8 * N)) : (bytesOf v).length = N := by simp [bytesOf]

/-- The bits of a word read from bytes: bit `i` is in the byte `i / 8` places from the end. -/
theorem wordOfBytes_bit {n : Nat} (bs : List Byte) {i : Nat} (hi : i < n) (h : i / 8 < bs.length) :
    (wordOfBytes n bs).getLsbD i = (bs[bs.length - 1 - i / 8]).getLsbD (i % 8) := by
  have key : ∀ (bs : List Byte) (acc : BitVec n),
      (bs.foldl (fun (acc : BitVec n) (b : Byte) => (acc <<< 8) ||| b.setWidth n) acc).getLsbD i =
        if h : i / 8 < bs.length then (bs[bs.length - 1 - i / 8]).getLsbD (i % 8)
        else acc.getLsbD (i - 8 * bs.length) := by
    intro bs
    induction bs with
    | nil => intro acc; simp
    | cons b bs ih =>
      intro acc
      rw [List.foldl_cons, ih]
      by_cases h1 : i / 8 < bs.length
      · have h2 : i / 8 < (b :: bs).length := by simp; omega
        simp only [h1, h2, dif_pos]
        congr 1
        have e : (b :: bs).length - 1 - i / 8 = (bs.length - 1 - i / 8) + 1 := by simp; omega
        simp only [e, List.getElem_cons_succ]
      · rw [dif_neg h1]
        have hk : i - 8 * bs.length < n := by omega
        by_cases h2 : i / 8 = bs.length
        · have h3 : i / 8 < (b :: bs).length := by simp; omega
          have e : (b :: bs).length - 1 - i / 8 = 0 := by simp; omega
          simp only [h3, dif_pos, e, List.getElem_cons_zero]
          have : i - 8 * bs.length < 8 := by omega
          simp [this, hk]
          congr 1
          omega
        · have h3 : ¬ i / 8 < (b :: bs).length := by simp; omega
          rw [dif_neg h3]
          have : ¬ i - 8 * bs.length < 8 := by omega
          simp [this, hk]
          have e : i - 8 * bs.length - 8 = i - 8 * (bs.length + 1) := by omega
          have : b.getLsbD (i - 8 * bs.length) = false := by apply BitVec.getLsbD_of_ge; omega
          simp [this, ← BitVec.getLsbD_eq_getElem, e]
  rw [wordOfBytes, key, dif_pos h]

end Sys2Proof.Machine
end

