-- ==== Sys2Proof/Laws/Datapath.lean ====
section
/-! SUPPORT. The small lemmas of the datapath: the subkey file, splitting and joining, the rotation amounts, one round
undone (42_key_schedule.md, 43_round_function.md, 44_feistel_driver.md). -/

namespace Sys2Proof.Machine

/-- Reading the subkey file after writing one entry (10_state.md rule R32). -/
theorem readSubkey_writeSubkey (sk : SubkeyFile) (k j : Round) (v : Subkey) :
    readSubkey (writeSubkey sk k v) j = if j = k then v else readSubkey sk j := by
  unfold readSubkey writeSubkey
  rw [Vector.getElem_set]
  by_cases h : j = k
  · simp [h]
  · rw [if_neg (by intro e; exact h (BitVec.eq_of_toNat_eq e.symm)), if_neg h]

/-- Two subkey files with the same entries are equal. -/
theorem subkeyFile_ext {a b : SubkeyFile} (h : ∀ j : Round, readSubkey a j = readSubkey b j) : a = b := by
  refine Vector.ext fun i hi => ?_
  have := h (BitVec.ofNat 4 i)
  simpa [readSubkey, Nat.mod_eq_of_lt hi] using this

/-- Entry `k` of the schedule is selected from the halves after round `k` (rule R181). -/
theorem readSubkey_keySchedule (K : Block) (k : Round) :
    readSubkey (keySchedule K) k = subkeyOf (keyHalves K (k.toNat + 1)) := by
  simp [readSubkey, keySchedule]

/-- The schedule depends on the reduced key alone. -/
theorem keySchedule_congr {K K' : Block} (h : permute pc1Table K = permute pc1Table K') :
    keySchedule K = keySchedule K' := by
  have : ∀ i, keyHalves K i = keyHalves K' i := by
    intro i
    induction i with
    | zero => simp [keyHalves, h]
    | succ i ih => simp [keyHalves, ih]
  simp [keySchedule, this]

/-- Splitting the reduced key and joining the halves gives it back. -/
theorem splitKey_append (x : ReducedKey) : (splitKey x).1 ++ (splitKey x).2 = x := by
  refine BitVec.eq_of_getLsbD_eq fun p hp => ?_
  simp only [splitKey, BitVec.getLsbD_append, BitVec.getLsbD_extractLsb']
  split
  · simp_all
  · have : p - 28 < 28 := by omega
    simp [this]
    congr 1
    omega

/-- Splitting a block and joining the halves gives it back. -/
theorem splitBlock_append (b : Block) : (splitBlock b).1 ++ (splitBlock b).2 = b := by
  refine BitVec.eq_of_getLsbD_eq fun p hp => ?_
  simp only [splitBlock, BitVec.getLsbD_append, BitVec.getLsbD_extractLsb']
  split
  · simp_all
  · have : p - 32 < 32 := by omega
    simp [this]
    congr 1
    omega

/-- Joining two halves and splitting gives them back. -/
theorem splitBlock_of_append (a b : Half) : splitBlock (a ++ b) = (a, b) := by
  refine Prod.ext (BitVec.eq_of_getLsbD_eq fun i hi => ?_) (BitVec.eq_of_getLsbD_eq fun i hi => ?_)
  · simp only [splitBlock, BitVec.getLsbD_extractLsb']
    rw [BitVec.getLsbD_append]
    simp [hi]
  · simp only [splitBlock, BitVec.getLsbD_extractLsb']
    rw [BitVec.getLsbD_append]
    simp [hi]

/-- Every rotation amount is 1 or 2 (rule R184). -/
theorem rotAmount_cases (k : Round) : rotAmount k = 1 ∨ rotAmount k = 2 := by
  revert k
  decide +kernel

/-- A round is undone by the same round with the same subkey on the swapped state (44_feistel_driver.md rule R248). -/
theorem feistelRound_undo (k : Subkey) (h : Half × Half) :
    feistelRound k (feistelRound k h).swap = h.swap := by
  simp [feistelRound, Prod.swap]

/-- The round counter's successor below the last round (10_state.md rule R37: it never wraps). -/
theorem round_succ {k : Round} (h : k ≠ 15) : (k + 1).toNat = k.toNat + 1 := by
  have := k.isLt
  have : k.toNat ≠ 15 := fun e => h (BitVec.eq_of_toNat_eq e)
  simp [BitVec.toNat_add]
  omega

end Sys2Proof.Machine
end

