-- ==== Sys2Proof/Laws/State.lean ====
section
/-! SUPPORT. One lemma per field per state update, true by `rfl`: what each named operation leaves in each field, so that no
proof unfolds a record update. -/

namespace Sys2Proof.Machine

/-! ### Fault entry (60_exceptions.md rule R281) -/

@[simp] theorem raiseFault_key (code : FaultCode) (s : State) : (raiseFault code s).key = s.key := rfl
@[simp] theorem raiseFault_sk (code : FaultCode) (s : State) : (raiseFault code s).sk = s.sk := rfl
@[simp] theorem raiseFault_keyValid (code : FaultCode) (s : State) : (raiseFault code s).keyValid = s.keyValid := rfl
@[simp] theorem raiseFault_c (code : FaultCode) (s : State) : (raiseFault code s).c = s.c := rfl
@[simp] theorem raiseFault_d (code : FaultCode) (s : State) : (raiseFault code s).d = s.d := rfl
@[simp] theorem raiseFault_l (code : FaultCode) (s : State) : (raiseFault code s).l = s.l := rfl
@[simp] theorem raiseFault_r (code : FaultCode) (s : State) : (raiseFault code s).r = s.r := rfl
@[simp] theorem raiseFault_st (code : FaultCode) (s : State) : (raiseFault code s).st = .fault := rfl
@[simp] theorem raiseFault_rnd (code : FaultCode) (s : State) : (raiseFault code s).rnd = s.rnd := rfl
@[simp] theorem raiseFault_dir (code : FaultCode) (s : State) : (raiseFault code s).dir = s.dir := rfl
@[simp] theorem raiseFault_dout (code : FaultCode) (s : State) : (raiseFault code s).dout = s.dout := rfl
@[simp] theorem raiseFault_doutValid (code : FaultCode) (s : State) : (raiseFault code s).doutValid = s.doutValid := rfl
@[simp] theorem raiseFault_err (code : FaultCode) (s : State) : (raiseFault code s).err = code.bits := rfl
@[simp] theorem raiseFault_script (code : FaultCode) (s : State) : (raiseFault code s).script = s.script := rfl
@[simp] theorem raiseFault_reads (code : FaultCode) (s : State) : (raiseFault code s).reads = s.reads := rfl

/-! ### The reset edge (70_reset_and_hazards.md rule R320) -/

@[simp] theorem resetEdge_key (s : State) : (resetEdge s).key = s.key := rfl
@[simp] theorem resetEdge_sk (s : State) : (resetEdge s).sk = s.sk := rfl
@[simp] theorem resetEdge_keyValid (s : State) : (resetEdge s).keyValid = false := rfl
@[simp] theorem resetEdge_c (s : State) : (resetEdge s).c = s.c := rfl
@[simp] theorem resetEdge_d (s : State) : (resetEdge s).d = s.d := rfl
@[simp] theorem resetEdge_l (s : State) : (resetEdge s).l = s.l := rfl
@[simp] theorem resetEdge_r (s : State) : (resetEdge s).r = s.r := rfl
@[simp] theorem resetEdge_st (s : State) : (resetEdge s).st = .idle := rfl
@[simp] theorem resetEdge_rnd (s : State) : (resetEdge s).rnd = 0 := rfl
@[simp] theorem resetEdge_dir (s : State) : (resetEdge s).dir = false := rfl
@[simp] theorem resetEdge_dout (s : State) : (resetEdge s).dout = 0 := rfl
@[simp] theorem resetEdge_doutValid (s : State) : (resetEdge s).doutValid = false := rfl
@[simp] theorem resetEdge_err (s : State) : (resetEdge s).err = 0 := rfl
@[simp] theorem resetEdge_script (s : State) : (resetEdge s).script = s.script := rfl
@[simp] theorem resetEdge_reads (s : State) : (resetEdge s).reads = s.reads := rfl

/-! ### LDKEY acceptance (42_key_schedule.md rule R182) -/

@[simp] theorem acceptKey_key (K : Block) (s : State) : (acceptKey K s).key = K := rfl
@[simp] theorem acceptKey_sk (K : Block) (s : State) : (acceptKey K s).sk = s.sk := rfl
@[simp] theorem acceptKey_keyValid (K : Block) (s : State) : (acceptKey K s).keyValid = false := rfl
@[simp] theorem acceptKey_c (K : Block) (s : State) : (acceptKey K s).c = (splitKey (permute pc1Table K)).1 := rfl
@[simp] theorem acceptKey_d (K : Block) (s : State) : (acceptKey K s).d = (splitKey (permute pc1Table K)).2 := rfl
@[simp] theorem acceptKey_l (K : Block) (s : State) : (acceptKey K s).l = s.l := rfl
@[simp] theorem acceptKey_r (K : Block) (s : State) : (acceptKey K s).r = s.r := rfl
@[simp] theorem acceptKey_st (K : Block) (s : State) : (acceptKey K s).st = .ks := rfl
@[simp] theorem acceptKey_rnd (K : Block) (s : State) : (acceptKey K s).rnd = 0 := rfl
@[simp] theorem acceptKey_dir (K : Block) (s : State) : (acceptKey K s).dir = s.dir := rfl
@[simp] theorem acceptKey_dout (K : Block) (s : State) : (acceptKey K s).dout = s.dout := rfl
@[simp] theorem acceptKey_doutValid (K : Block) (s : State) : (acceptKey K s).doutValid = s.doutValid := rfl
@[simp] theorem acceptKey_err (K : Block) (s : State) : (acceptKey K s).err = s.err := rfl
@[simp] theorem acceptKey_script (K : Block) (s : State) : (acceptKey K s).script = s.script := rfl
@[simp] theorem acceptKey_reads (K : Block) (s : State) : (acceptKey K s).reads = s.reads := rfl

/-! ### ENC and DEC acceptance (44_feistel_driver.md rule R244) -/

@[simp] theorem acceptBlock_key (dir : Bool) (b : Block) (s : State) : (acceptBlock dir b s).key = s.key := rfl
@[simp] theorem acceptBlock_sk (dir : Bool) (b : Block) (s : State) : (acceptBlock dir b s).sk = s.sk := rfl
@[simp] theorem acceptBlock_keyValid (dir : Bool) (b : Block) (s : State) : (acceptBlock dir b s).keyValid = s.keyValid := rfl
@[simp] theorem acceptBlock_c (dir : Bool) (b : Block) (s : State) : (acceptBlock dir b s).c = s.c := rfl
@[simp] theorem acceptBlock_d (dir : Bool) (b : Block) (s : State) : (acceptBlock dir b s).d = s.d := rfl
@[simp] theorem acceptBlock_l (dir : Bool) (b : Block) (s : State) : (acceptBlock dir b s).l = (startHalves b).1 := rfl
@[simp] theorem acceptBlock_r (dir : Bool) (b : Block) (s : State) : (acceptBlock dir b s).r = (startHalves b).2 := rfl
@[simp] theorem acceptBlock_st (dir : Bool) (b : Block) (s : State) : (acceptBlock dir b s).st = .run := rfl
@[simp] theorem acceptBlock_rnd (dir : Bool) (b : Block) (s : State) : (acceptBlock dir b s).rnd = 0 := rfl
@[simp] theorem acceptBlock_dir (dir : Bool) (b : Block) (s : State) : (acceptBlock dir b s).dir = dir := rfl
@[simp] theorem acceptBlock_dout (dir : Bool) (b : Block) (s : State) : (acceptBlock dir b s).dout = s.dout := rfl
@[simp] theorem acceptBlock_doutValid (dir : Bool) (b : Block) (s : State) : (acceptBlock dir b s).doutValid = false := rfl
@[simp] theorem acceptBlock_err (dir : Bool) (b : Block) (s : State) : (acceptBlock dir b s).err = s.err := rfl
@[simp] theorem acceptBlock_script (dir : Bool) (b : Block) (s : State) : (acceptBlock dir b s).script = s.script := rfl
@[simp] theorem acceptBlock_reads (dir : Bool) (b : Block) (s : State) : (acceptBlock dir b s).reads = s.reads := rfl

/-! ### The KS step (42_key_schedule.md rule R185) -/

@[simp] theorem ksStep_key (s : State) : (ksStep s).key = s.key := rfl
@[simp] theorem ksStep_sk (s : State) : (ksStep s).sk = writeSubkey s.sk s.rnd (subkeyOf (rotateHalves s.rnd (s.c, s.d))) := rfl
@[simp] theorem ksStep_keyValid (s : State) : (ksStep s).keyValid = if s.rnd = 15 then true else s.keyValid := rfl
@[simp] theorem ksStep_c (s : State) : (ksStep s).c = (rotateHalves s.rnd (s.c, s.d)).1 := rfl
@[simp] theorem ksStep_d (s : State) : (ksStep s).d = (rotateHalves s.rnd (s.c, s.d)).2 := rfl
@[simp] theorem ksStep_l (s : State) : (ksStep s).l = s.l := rfl
@[simp] theorem ksStep_r (s : State) : (ksStep s).r = s.r := rfl
@[simp] theorem ksStep_st (s : State) : (ksStep s).st = if s.rnd = 15 then .idle else s.st := rfl
@[simp] theorem ksStep_rnd (s : State) : (ksStep s).rnd = if s.rnd = 15 then s.rnd else s.rnd + 1 := rfl
@[simp] theorem ksStep_dir (s : State) : (ksStep s).dir = s.dir := rfl
@[simp] theorem ksStep_dout (s : State) : (ksStep s).dout = s.dout := rfl
@[simp] theorem ksStep_doutValid (s : State) : (ksStep s).doutValid = s.doutValid := rfl
@[simp] theorem ksStep_err (s : State) : (ksStep s).err = s.err := rfl
@[simp] theorem ksStep_script (s : State) : (ksStep s).script = s.script := rfl
@[simp] theorem ksStep_reads (s : State) : (ksStep s).reads = s.reads := rfl

/-! ### The RUN step (44_feistel_driver.md rule R245) -/

@[simp] theorem runStep_key (s : State) : (runStep s).key = s.key := rfl
@[simp] theorem runStep_sk (s : State) : (runStep s).sk = s.sk := rfl
@[simp] theorem runStep_keyValid (s : State) : (runStep s).keyValid = s.keyValid := rfl
@[simp] theorem runStep_c (s : State) : (runStep s).c = s.c := rfl
@[simp] theorem runStep_d (s : State) : (runStep s).d = s.d := rfl
@[simp] theorem runStep_l (s : State) : (runStep s).l = s.r := rfl
@[simp] theorem runStep_r (s : State) : (runStep s).r = (feistelRound (readSubkey s.sk (subkeyIndex s.dir s.rnd)) (s.l, s.r)).2 := rfl
@[simp] theorem runStep_st (s : State) : (runStep s).st = if s.rnd = 15 then .idle else s.st := rfl
@[simp] theorem runStep_rnd (s : State) : (runStep s).rnd = if s.rnd = 15 then s.rnd else s.rnd + 1 := rfl
@[simp] theorem runStep_dir (s : State) : (runStep s).dir = s.dir := rfl
@[simp] theorem runStep_dout (s : State) : (runStep s).dout = if s.rnd = 15 then outputBlock (feistelRound (readSubkey s.sk (subkeyIndex s.dir s.rnd)) (s.l, s.r)) else s.dout := rfl
@[simp] theorem runStep_doutValid (s : State) : (runStep s).doutValid = if s.rnd = 15 then true else s.doutValid := rfl
@[simp] theorem runStep_err (s : State) : (runStep s).err = s.err := rfl
@[simp] theorem runStep_script (s : State) : (runStep s).script = s.script := rfl
@[simp] theorem runStep_reads (s : State) : (runStep s).reads = s.reads := rfl

/-! ### The READs before an edge (30_encoding.md rule R108) -/

@[simp] theorem doReads_key (s : State) : (doReads s).key = s.key := rfl
@[simp] theorem doReads_sk (s : State) : (doReads s).sk = s.sk := rfl
@[simp] theorem doReads_keyValid (s : State) : (doReads s).keyValid = s.keyValid := rfl
@[simp] theorem doReads_c (s : State) : (doReads s).c = s.c := rfl
@[simp] theorem doReads_d (s : State) : (doReads s).d = s.d := rfl
@[simp] theorem doReads_l (s : State) : (doReads s).l = s.l := rfl
@[simp] theorem doReads_r (s : State) : (doReads s).r = s.r := rfl
@[simp] theorem doReads_st (s : State) : (doReads s).st = s.st := rfl
@[simp] theorem doReads_rnd (s : State) : (doReads s).rnd = s.rnd := rfl
@[simp] theorem doReads_dir (s : State) : (doReads s).dir = s.dir := rfl
@[simp] theorem doReads_dout (s : State) : (doReads s).dout = s.dout := rfl
@[simp] theorem doReads_doutValid (s : State) : (doReads s).doutValid = s.doutValid := rfl
@[simp] theorem doReads_err (s : State) : (doReads s).err = s.err := rfl
@[simp] theorem doReads_script (s : State) : (doReads s).script = dropReads s.script := rfl
@[simp] theorem doReads_reads (s : State) : (doReads s).reads = s.reads ++ List.replicate (leadingReads s.script) s.outputs := rfl

/-! ### The host moving on (30_encoding.md rule R108) -/

@[simp] theorem hostAdvance_key (a : Bool) (s : State) : (hostAdvance a s).key = s.key := rfl
@[simp] theorem hostAdvance_sk (a : Bool) (s : State) : (hostAdvance a s).sk = s.sk := rfl
@[simp] theorem hostAdvance_keyValid (a : Bool) (s : State) : (hostAdvance a s).keyValid = s.keyValid := rfl
@[simp] theorem hostAdvance_c (a : Bool) (s : State) : (hostAdvance a s).c = s.c := rfl
@[simp] theorem hostAdvance_d (a : Bool) (s : State) : (hostAdvance a s).d = s.d := rfl
@[simp] theorem hostAdvance_l (a : Bool) (s : State) : (hostAdvance a s).l = s.l := rfl
@[simp] theorem hostAdvance_r (a : Bool) (s : State) : (hostAdvance a s).r = s.r := rfl
@[simp] theorem hostAdvance_st (a : Bool) (s : State) : (hostAdvance a s).st = s.st := rfl
@[simp] theorem hostAdvance_rnd (a : Bool) (s : State) : (hostAdvance a s).rnd = s.rnd := rfl
@[simp] theorem hostAdvance_dir (a : Bool) (s : State) : (hostAdvance a s).dir = s.dir := rfl
@[simp] theorem hostAdvance_dout (a : Bool) (s : State) : (hostAdvance a s).dout = s.dout := rfl
@[simp] theorem hostAdvance_doutValid (a : Bool) (s : State) : (hostAdvance a s).doutValid = s.doutValid := rfl
@[simp] theorem hostAdvance_err (a : Bool) (s : State) : (hostAdvance a s).err = s.err := rfl
@[simp] theorem hostAdvance_script (a : Bool) (s : State) : (hostAdvance a s).script = scriptAfter a s s.script := rfl
@[simp] theorem hostAdvance_reads (a : Bool) (s : State) : (hostAdvance a s).reads = s.reads := rfl

/-! ### The whole LDKEY (44_feistel_driver.md rule R254) -/

@[simp] theorem loadKey_key (K : Block) (s : State) : (loadKey K s).key = K := rfl
@[simp] theorem loadKey_sk (K : Block) (s : State) : (loadKey K s).sk = keySchedule K := rfl
@[simp] theorem loadKey_keyValid (K : Block) (s : State) : (loadKey K s).keyValid = true := rfl
@[simp] theorem loadKey_c (K : Block) (s : State) : (loadKey K s).c = (splitKey (permute pc1Table K)).1 := rfl
@[simp] theorem loadKey_d (K : Block) (s : State) : (loadKey K s).d = (splitKey (permute pc1Table K)).2 := rfl
@[simp] theorem loadKey_l (K : Block) (s : State) : (loadKey K s).l = s.l := rfl
@[simp] theorem loadKey_r (K : Block) (s : State) : (loadKey K s).r = s.r := rfl
@[simp] theorem loadKey_st (K : Block) (s : State) : (loadKey K s).st = .idle := rfl
@[simp] theorem loadKey_rnd (K : Block) (s : State) : (loadKey K s).rnd = 15 := rfl
@[simp] theorem loadKey_dir (K : Block) (s : State) : (loadKey K s).dir = s.dir := rfl
@[simp] theorem loadKey_dout (K : Block) (s : State) : (loadKey K s).dout = s.dout := rfl
@[simp] theorem loadKey_doutValid (K : Block) (s : State) : (loadKey K s).doutValid = s.doutValid := rfl
@[simp] theorem loadKey_err (K : Block) (s : State) : (loadKey K s).err = s.err := rfl
@[simp] theorem loadKey_script (K : Block) (s : State) : (loadKey K s).script = s.script := rfl
@[simp] theorem loadKey_reads (K : Block) (s : State) : (loadKey K s).reads = s.reads := rfl

/-! ### The whole ENC or DEC (44_feistel_driver.md rule R254) -/

@[simp] theorem cryptBlock_key (dir : Bool) (b : Block) (s : State) : (cryptBlock dir b s).key = s.key := rfl
@[simp] theorem cryptBlock_sk (dir : Bool) (b : Block) (s : State) : (cryptBlock dir b s).sk = s.sk := rfl
@[simp] theorem cryptBlock_keyValid (dir : Bool) (b : Block) (s : State) : (cryptBlock dir b s).keyValid = s.keyValid := rfl
@[simp] theorem cryptBlock_c (dir : Bool) (b : Block) (s : State) : (cryptBlock dir b s).c = s.c := rfl
@[simp] theorem cryptBlock_d (dir : Bool) (b : Block) (s : State) : (cryptBlock dir b s).d = s.d := rfl
@[simp] theorem cryptBlock_l (dir : Bool) (b : Block) (s : State) : (cryptBlock dir b s).l = (halfStates s.sk dir (startHalves b) 16).1 := rfl
@[simp] theorem cryptBlock_r (dir : Bool) (b : Block) (s : State) : (cryptBlock dir b s).r = (halfStates s.sk dir (startHalves b) 16).2 := rfl
@[simp] theorem cryptBlock_st (dir : Bool) (b : Block) (s : State) : (cryptBlock dir b s).st = .idle := rfl
@[simp] theorem cryptBlock_rnd (dir : Bool) (b : Block) (s : State) : (cryptBlock dir b s).rnd = 15 := rfl
@[simp] theorem cryptBlock_dir (dir : Bool) (b : Block) (s : State) : (cryptBlock dir b s).dir = dir := rfl
@[simp] theorem cryptBlock_dout (dir : Bool) (b : Block) (s : State) : (cryptBlock dir b s).dout = crypt s.sk b dir := rfl
@[simp] theorem cryptBlock_doutValid (dir : Bool) (b : Block) (s : State) : (cryptBlock dir b s).doutValid = true := rfl
@[simp] theorem cryptBlock_err (dir : Bool) (b : Block) (s : State) : (cryptBlock dir b s).err = s.err := rfl
@[simp] theorem cryptBlock_script (dir : Bool) (b : Block) (s : State) : (cryptBlock dir b s).script = s.script := rfl
@[simp] theorem cryptBlock_reads (dir : Bool) (b : Block) (s : State) : (cryptBlock dir b s).reads = s.reads := rfl

/-! ### The outputs after an update depend on the registers alone -/

@[simp] theorem doReads_outputs (s : State) : (doReads s).outputs = s.outputs := rfl
@[simp] theorem hostAdvance_outputs (a : Bool) (s : State) : (hostAdvance a s).outputs = s.outputs := rfl

end Sys2Proof.Machine
end

