-- ==== Sys2Proof/Laws/Edge.lean ====
section
/-! SUPPORT. What one edge can do (44_feistel_driver.md rule R240): one lemma per row of the FSM table, the inversion lemma
that later proofs use instead of unfolding `edge`, and runs of edges. -/

namespace Sys2Proof.Machine

theorem cmdReady_of_idle {s : State} (h : s.st = .idle) : s.cmdReady = true := by
  simp [State.cmdReady, h]

theorem cmdReady_of_ne_idle {s : State} (h : s.st ≠ .idle) : s.cmdReady = false := by
  simpa [State.cmdReady] using h

theorem whenReady_idle (act : State → State) {s : State} (h : s.st = .idle) : whenReady act s = act s := by
  simp [whenReady, cmdReady_of_idle h]

theorem whenReady_not_idle (act : State → State) {s : State} (h : s.st ≠ .idle) : whenReady act s = s := by
  simp [whenReady, cmdReady_of_ne_idle h]

theorem acceptCipher_keyed (dir : Bool) (b : Block) {s : State} (h : s.keyValid = true) :
    acceptCipher dir b s = acceptBlock dir b s := by
  simp [acceptCipher, h]

theorem acceptCipher_unkeyed (dir : Bool) (b : Block) {s : State} (h : s.keyValid = false) :
    acceptCipher dir b s = raiseFault .noKey s := by
  simp [acceptCipher, h]

/-- What an accepted command does to the engine (rules R182, R240, R244, R284). -/
def acceptInstr : Instr → State → State
  | .ldkey K => acceptKey K
  | .enc b => acceptCipher false b
  | .dec b => acceptCipher true b

/-- Every command answers a next state: its acceptance action in IDLE, nothing elsewhere (rule R101). -/
theorem exec_eq (i : Instr) (s : State) : exec i s = .next (whenReady (acceptInstr i) s) := by
  cases i <;> rfl

theorem edge_of_reset {p : Pins} (s : State) (h : p.rst = true) : edge p s = .next (resetEdge s) := by
  simp [edge, h]

theorem edge_of_ks {p : Pins} {s : State} (h : p.rst = false) (hs : s.st = .ks) :
    edge p s = .next (ksStep s) := by
  simp [edge, h, hs]

theorem edge_of_run {p : Pins} {s : State} (h : p.rst = false) (hs : s.st = .run) :
    edge p s = .next (runStep s) := by
  simp [edge, h, hs]

theorem edge_of_fault {p : Pins} {s : State} (h : p.rst = false) (hs : s.st = .fault) :
    edge p s = .next s := by
  simp [edge, h, hs]

theorem edge_of_no_command {p : Pins} {s : State} (h : p.rst = false) (hv : p.cmdValid = false)
    (hs : s.st = .idle) : edge p s = .next s := by
  simp [edge, accepts, h, hv, hs]

theorem edge_of_illegal {p : Pins} {s : State} {e : Illegal} (h : p.rst = false) (hv : p.cmdValid = true)
    (hs : s.st = .idle) (hd : decode p.cmdWord p.cmdData = .error e) :
    edge p s = .next (raiseFault .illegalCmd s) := by
  simp [edge, accepts, acceptCommand, h, hv, hs, cmdReady_of_idle hs, hd]

theorem edge_of_command {p : Pins} {s : State} {i : Instr} (h : p.rst = false) (hv : p.cmdValid = true)
    (hs : s.st = .idle) (hd : decode p.cmdWord p.cmdData = .ok i) :
    edge p s = .next (acceptInstr i s) := by
  simp [edge, accepts, acceptCommand, h, hv, hs, cmdReady_of_idle hs, hd, exec_eq, whenReady_idle _ hs]

/-- What an edge can do, once: the reset, or one of the rows of the FSM table. -/
theorem edge_cases (p : Pins) (s : State) :
    (p.rst = true ∧ edge p s = .next (resetEdge s)) ∨
    (p.rst = false ∧ p.cmdValid = false ∧ s.st = .idle ∧ edge p s = .next s) ∨
    (p.rst = false ∧ p.cmdValid = true ∧ s.st = .idle ∧ (∃ e, decode p.cmdWord p.cmdData = .error e) ∧
      edge p s = .next (raiseFault .illegalCmd s)) ∨
    (p.rst = false ∧ p.cmdValid = true ∧ s.st = .idle ∧
      ∃ i, decode p.cmdWord p.cmdData = .ok i ∧ edge p s = .next (acceptInstr i s)) ∨
    (p.rst = false ∧ s.st = .ks ∧ edge p s = .next (ksStep s)) ∨
    (p.rst = false ∧ s.st = .run ∧ edge p s = .next (runStep s)) ∨
    (p.rst = false ∧ s.st = .fault ∧ edge p s = .next s) := by
  cases hr : p.rst with
  | true => exact .inl ⟨rfl, edge_of_reset s hr⟩
  | false =>
    right
    cases hs : s.st with
    | idle =>
      cases hv : p.cmdValid with
      | false => exact .inl ⟨rfl, rfl, rfl, edge_of_no_command hr hv hs⟩
      | true =>
        right
        cases hd : decode p.cmdWord p.cmdData with
        | error e => exact .inl ⟨rfl, rfl, rfl, ⟨e, rfl⟩, edge_of_illegal hr hv hs hd⟩
        | ok i => exact .inr (.inl ⟨rfl, rfl, rfl, i, rfl, edge_of_command hr hv hs hd⟩)
    | ks => simp [edge_of_ks hr hs]
    | run => simp [edge_of_run hr hs]
    | fault => simp [edge_of_fault hr hs]

/-- The state an edge leaves, as a function (every edge answers a next state). -/
def edgeNext (p : Pins) (s : State) : State :=
  match edge p s with
  | .next t => t
  | .fault _ => s
  | .refused _ => s

theorem edge_eq (p : Pins) (s : State) : edge p s = .next (edgeNext p s) := by
  rcases edge_cases p s with h | h | h | ⟨_, _, _, i, _, h⟩ | h | h | h <;> simp_all [edgeNext]

theorem runEdges_nil (s : State) : runEdges [] s = .next s := rfl

theorem runEdges_cons (p : Pins) (ps : List Pins) (s : State) :
    runEdges (p :: ps) s = runEdges ps (edgeNext p s) := by
  simp [runEdges, edge_eq p s]

/-- A run of edges is the fold of its edges. -/
theorem runEdges_eq (ps : List Pins) (s : State) : runEdges ps s = .next (ps.foldl (fun s p => edgeNext p s) s) := by
  induction ps generalizing s with
  | nil => rfl
  | cons p ps ih => simp [runEdges_cons, ih]

/-- Runs of edges compose. -/
theorem runEdges_append {ps qs : List Pins} {s t : State} (h : runEdges ps s = .next t) :
    runEdges (ps ++ qs) s = runEdges qs t := by
  simp only [runEdges_eq, List.foldl_append] at h ⊢
  cases h
  rfl

theorem edgeNext_of {p : Pins} {s t : State} (h : edge p s = .next t) : edgeNext p s = t := by
  simp [edgeNext, h]

/-- An edge neither reads nor writes what the host has to do. -/
theorem edge_host_frame (p : Pins) (s : State) :
    (edgeNext p s).script = s.script ∧ (edgeNext p s).reads = s.reads := by
  have hi : ∀ i, (acceptInstr i s).script = s.script ∧ (acceptInstr i s).reads = s.reads := by
    intro i
    cases i <;> simp only [acceptInstr, acceptCipher, acceptKey_script, acceptKey_reads, and_self] <;>
      split <;> simp
  rcases edge_cases p s with h | h | h | ⟨_, _, _, i, _, h⟩ | h | h | h
  · rw [edgeNext_of h.2]; simp
  · rw [edgeNext_of h.2.2.2]; simp
  · rw [edgeNext_of h.2.2.2.2]; simp
  · rw [edgeNext_of h]; exact hi i
  · rw [edgeNext_of h.2.2]; simp
  · rw [edgeNext_of h.2.2]; simp
  · rw [edgeNext_of h.2.2]; simp

end Sys2Proof.Machine
end

