-- ==== Sys2Proof/Laws/HostPort.lean ====
section
/-! SUPPORT. The step as an edge of the engine with its host (30_encoding.md rules R101, R108): what a step answers, that the
engine never looks at the host's side of the state, and runs of steps. -/

namespace Sys2Proof.Machine

/-- The state with the host's side replaced. -/
def withHost (s : State) (script : List HostAction) (reads : List Outputs) : State :=
  { s with script := script, reads := reads }

theorem withHost_self (s : State) : withHost s s.script s.reads = s := rfl

theorem acceptInstr_withHost (i : Instr) (s : State) (sc : List HostAction) (rd : List Outputs) :
    acceptInstr i (withHost s sc rd) = withHost (acceptInstr i s) sc rd := by
  cases i with
  | ldkey K => rfl
  | enc b => cases hk : s.keyValid <;> simp [acceptInstr, acceptCipher, withHost, hk] <;> rfl
  | dec b => cases hk : s.keyValid <;> simp [acceptInstr, acceptCipher, withHost, hk] <;> rfl

/-- An edge does the same to the engine whatever the host has still to do or has read. -/
theorem edgeNext_withHost (p : Pins) (s : State) (sc : List HostAction) (rd : List Outputs) :
    edgeNext p (withHost s sc rd) = withHost (edgeNext p s) sc rd := by
  rcases edge_cases p s with c | c | c | ⟨c1, c2, c3, i, c4, c⟩ | c | c | c
  · rw [edgeNext_of c.2, edgeNext_of (edge_of_reset _ c.1)]; rfl
  · rw [edgeNext_of c.2.2.2, edgeNext_of (edge_of_no_command (s := withHost s sc rd) c.1 c.2.1 c.2.2.1)]
  · obtain ⟨e, he⟩ := c.2.2.2.1
    rw [edgeNext_of c.2.2.2.2, edgeNext_of (edge_of_illegal (s := withHost s sc rd) c.1 c.2.1 c.2.2.1 he)]; rfl
  · rw [edgeNext_of c, edgeNext_of (edge_of_command (s := withHost s sc rd) c1 c2 c3 c4), acceptInstr_withHost]
  · rw [edgeNext_of c.2.2, edgeNext_of (edge_of_ks (s := withHost s sc rd) c.1 c.2.1)]; rfl
  · rw [edgeNext_of c.2.2, edgeNext_of (edge_of_run (s := withHost s sc rd) c.1 c.2.1)]; rfl
  · rw [edgeNext_of c.2.2, edgeNext_of (edge_of_fault (s := withHost s sc rd) c.1 c.2.1)]

/-- What a step answers: the edge the host drives after its READs, and the host moved on. -/
theorem step_eq (s : State) :
    step s = .next (hostAdvance (accepts (hostPins (doReads s).script) (doReads s))
      (edgeNext (hostPins (doReads s).script) (doReads s))) := by
  simp [step, hostEdge, edge_eq]

/-- Without a pending READ nothing happens before the edge. -/
theorem doReads_of_not_read {s : State} {a : HostAction} {rest : List HostAction} (h : s.script = a :: rest)
    (hne : a ≠ .read) : doReads s = s := by
  have hl : leadingReads s.script = 0 := by rw [h]; cases a <;> simp_all [leadingReads]
  have hd : dropReads s.script = s.script := by rw [h]; cases a <;> simp_all [dropReads]
  simp [doReads, hl, hd]

/-- The engine's side of a step is an edge of the engine. -/
theorem step_eq_edge (s : State) :
    ∃ p sc rd, step s = .next (withHost (edgeNext p s) sc rd) := by
  have h := edgeNext_withHost (hostPins (doReads s).script) s (doReads s).script (doReads s).reads
  have e : withHost s (doReads s).script (doReads s).reads = doReads s := rfl
  rw [e] at h
  have hs := step_eq s
  rw [h] at hs
  exact ⟨_, _, _, hs⟩

theorem run_zero (s : State) : Host.Core.run Sys2Proof.core 0 s = .next s := rfl

/-- One step of a run. -/
theorem run_succ {n : Nat} {s t : State} (h : step s = .next t) :
    Host.Core.run Sys2Proof.core (n + 1) s = Host.Core.run Sys2Proof.core n t := by
  have hc : Sys2Proof.core.step s = .next t := h
  simp only [Host.Core.run, hc]

/-- A run of edges leaves the host's side as it was. -/
theorem runEdges_withHost (ps : List Pins) (s : State) (sc : List HostAction) (rd : List Outputs) :
    runEdges ps (withHost s sc rd) = .next (withHost (ps.foldl (fun s p => edgeNext p s) s) sc rd) := by
  induction ps generalizing s with
  | nil => rfl
  | cons p ps ih => rw [runEdges_cons, edgeNext_withHost, ih]; rfl

end Sys2Proof.Machine
end

