-- ==== Sys2Proof/Laws/PerInstr.lean ====
section
/-! SUPPORT. Statements made per command, as syntax: the command word of its encoding is well formed, carries the whole operand,
and decodes back to it (30_encoding.md rules R102 to R104). -/

namespace Sys2Proof.Laws.Encoding

/-- The encoding of a command is a legal word, and the decoder reads the command from it. -/
def Statement (i : Instr) : Prop :=
  i.wf = true ∧ CmdWord.wf (encode i).1 = true ∧ decode (encode i).1 (encode i).2 = .ok i

theorem ldkey (key : Block) : Statement (.ldkey key) := ⟨rfl, by simp only [encode]; rfl, by simp only [encode]; rfl⟩

theorem enc (block : Block) : Statement (.enc block) := ⟨rfl, by simp only [encode]; rfl, by simp only [encode]; rfl⟩

theorem dec (block : Block) : Statement (.dec block) := ⟨rfl, by simp only [encode]; rfl, by simp only [encode]; rfl⟩

end Sys2Proof.Laws.Encoding
end

