-- ==== Sys2Proof/Laws/Runs.lean ====
section
/-! SUPPORT. The two inductions over a command's steps, once: what the engine holds after LDKEY's acceptance and `n` KS steps, and after
ENC's or DEC's acceptance and `n` RUN steps (42_key_schedule.md rule R185; 44_feistel_driver.md rule R245). -/

namespace Sys2Proof.Machine

/-- A rotated half, position by position (rule R183). -/
theorem pos_rotl28 (x : KeyHalf) (k : Round) {p : Nat} (hp : p < 28) :
    pos (rotl28 x (rotAmount k)) p = pos x ((p + rotAmount k) % 28) := by
  rcases rotAmount_cases k with h | h <;> rw [h] <;>
    (simp [pos, rotl28, BitVec.getMsbD]; interval_cases p <;> simp)

/-- The halves after `i` rounds are the starting halves rotated by the sum of the first `i` amounts (rule R187). -/
theorem pos_keyHalves (K : Block) {i : Nat} (hi : i ≤ 16) : ∀ p, p < 28 →
    pos (keyHalves K i).1 p = pos (splitKey (permute pc1Table K)).1 ((p + (rotTable.entries.take i).sum) % 28) ∧
    pos (keyHalves K i).2 p = pos (splitKey (permute pc1Table K)).2 ((p + (rotTable.entries.take i).sum) % 28) := by
  induction i with
  | zero => intro p hp; simp [keyHalves, Nat.mod_eq_of_lt hp]
  | succ i ih =>
    intro p hp
    have hs : ∀ i < 16, (rotTable.entries.take (i + 1)).sum
        = (rotTable.entries.take i).sum + rotAmount (BitVec.ofNat 4 i) := by decide +kernel
    have hh := ih (by omega) ((p + rotAmount (BitVec.ofNat 4 i)) % 28) (Nat.mod_lt _ (by omega))
    simp only [keyHalves, rotateHalves]
    rw [pos_rotl28 _ _ hp, pos_rotl28 _ _ hp, hh.1, hh.2, hs i (by omega)]
    constructor <;> (congr 1; omega)

/-- Sixteen rounds bring each half back (40_tables.md rule R137). -/
theorem keyHalves_sixteen (K : Block) : keyHalves K 16 = splitKey (permute pc1Table K) := by
  have hsum : (rotTable.entries.take 16).sum = 28 := by decide
  refine Prod.ext (eq_of_pos fun p hp => ?_) (eq_of_pos fun p hp => ?_)
  · rw [(pos_keyHalves K (Nat.le_refl 16) p hp).1]
    congr 1
    omega
  · rw [(pos_keyHalves K (Nat.le_refl 16) p hp).2]
    congr 1
    omega

theorem round_ofNat_eq_last {n : Nat} (hn : n < 16) : BitVec.ofNat 4 n = (15 : Round) ↔ n = 15 := by
  interval_cases n <;> decide

theorem round_ofNat_succ {n : Nat} (hn : n < 15) : BitVec.ofNat 4 n + 1 = BitVec.ofNat 4 (n + 1) := by
  interval_cases n <;> decide

/-- The engine after LDKEY of `K` is accepted in `s₀` and `n` KS steps are taken. -/
structure KsAfter (K : Block) (s₀ : State) (n : Nat) (s : State) : Prop where
  /-- `C` and `D`. -/
  halves : (s.c, s.d) = keyHalves K n
  /-- The subkey file: the rounds done are those of the schedule, the others are untouched. -/
  subkeys : ∀ j : Round,
    readSubkey s.sk j = if j.toNat < n then readSubkey (keySchedule K) j else readSubkey s₀.sk j
  /-- The FSM state. -/
  fsm : s.st = if n < 16 then .ks else .idle
  /-- The round counter. -/
  round : s.rnd = BitVec.ofNat 4 (if n < 16 then n else 15)
  /-- `KEY_VALID`. -/
  valid : s.keyValid = if n < 16 then false else true
  /-- Everything else is as it was, but `KEY`. -/
  frame : s = { s₀ with
    key := K, c := s.c, d := s.d, sk := s.sk, st := s.st, rnd := s.rnd, keyValid := s.keyValid }

theorem ksAfter_accept (K : Block) (s₀ : State) : KsAfter K s₀ 0 (acceptKey K s₀) := by
  constructor <;> simp [keyHalves]
  rfl

theorem ksAfter_step {K : Block} {s₀ s : State} {n : Nat} (p : Pins) (hp : p.rst = false)
    (h : KsAfter K s₀ n s) (hn : n < 16) : KsAfter K s₀ (n + 1) (edgeNext p s) := by
  have hst := h.fsm
  have hr := h.round
  have hk := h.valid
  rw [if_pos hn] at hst hr hk
  rw [edgeNext_of (edge_of_ks hp hst)]
  have hh : rotateHalves s.rnd (s.c, s.d) = keyHalves K (n + 1) := by rw [hr, h.halves]; rfl
  have e15 : s.rnd = 15 ↔ n = 15 := by rw [hr]; exact round_ofNat_eq_last hn
  refine ⟨by simp [hh], fun j => ?_, ?_, ?_, ?_, ?_⟩
  · simp only [ksStep_sk, readSubkey_writeSubkey, hh]
    have hj : j = s.rnd ↔ j.toNat = n := by
      rw [hr]
      constructor
      · rintro rfl; simp [Nat.mod_eq_of_lt hn]
      · intro e; apply BitVec.eq_of_toNat_eq; simp [e, Nat.mod_eq_of_lt hn]
    by_cases e : j.toNat = n
    · rw [if_pos (hj.2 e), if_pos (by omega), readSubkey_keySchedule, e]
    · rw [if_neg (fun c => e (hj.1 c)), h.subkeys]
      by_cases h2 : j.toNat < n
      · rw [if_pos h2, if_pos (by omega)]
      · rw [if_neg h2, if_neg (by omega)]
  · simp only [ksStep_st, e15, hst]
    by_cases e : n = 15 <;> simp [e]
    omega
  · simp only [ksStep_rnd, e15]
    by_cases e : n = 15
    · simp [e, hr]
    · rw [if_neg e, if_pos (by omega), hr, round_ofNat_succ (by omega)]
  · simp only [ksStep_keyValid, e15, hk]
    by_cases e : n = 15 <;> simp [e]
    omega
  · have := h.frame
    rw [this]
    rfl

/-- Any edges without a reset, up to the sixteen steps. -/
theorem ksAfter_edges {K : Block} {s₀ s : State} {n : Nat} (ps : List Pins) (hp : NoReset ps)
    (h : KsAfter K s₀ n s) (hn : n + ps.length ≤ 16) :
    ∃ t, runEdges ps s = .next t ∧ KsAfter K s₀ (n + ps.length) t := by
  induction ps generalizing n s with
  | nil => exact ⟨s, rfl, h⟩
  | cons p ps ih =>
    simp only [List.length_cons] at hn
    rw [runEdges_cons]
    have := ksAfter_step p (hp p (by simp)) h (by omega)
    obtain ⟨t, h1, h2⟩ := ih (fun q hq => hp q (by simp [hq])) this (by omega)
    exact ⟨t, h1, by rwa [List.length_cons, ← show n + 1 + ps.length = n + (ps.length + 1) by omega]⟩

/-- After sixteen steps the state is that of the command-level LDKEY (rule R254). -/
theorem ksAfter_sixteen {K : Block} {s₀ s : State} (h : KsAfter K s₀ 16 s) : s = loadKey K s₀ := by
  have e := h.frame
  have hs : s.sk = keySchedule K := subkeyFile_ext fun j => by rw [h.subkeys, if_pos j.isLt]
  have hcd := h.halves
  rw [keyHalves_sixteen] at hcd
  rw [e, hs, h.fsm, h.round, h.valid, show s.c = _ from congrArg Prod.fst hcd,
    show s.d = _ from congrArg Prod.snd hcd]
  rfl

/-- The engine after ENC (`dir` 0) or DEC (`dir` 1) of `b` is accepted in `s₀` and `n` RUN steps are taken. -/
structure RunAfter (dir : Bool) (b : Block) (s₀ : State) (n : Nat) (s : State) : Prop where
  /-- `L` and `R`. -/
  halves : (s.l, s.r) = halfStates s₀.sk dir (startHalves b) n
  /-- The FSM state. -/
  fsm : s.st = if n < 16 then .run else .idle
  /-- The round counter. -/
  round : s.rnd = BitVec.ofNat 4 (if n < 16 then n else 15)
  /-- `DOUT_VALID`. -/
  valid : s.doutValid = if n < 16 then false else true
  /-- `DOUT`: the earlier result until the last step. -/
  result : s.dout = if n < 16 then s₀.dout else crypt s₀.sk b dir
  /-- Everything else is as it was, but `dir`. -/
  frame : s = { s₀ with
    l := s.l, r := s.r, st := s.st, rnd := s.rnd, doutValid := s.doutValid, dout := s.dout, dir := dir }

theorem runAfter_accept (dir : Bool) (b : Block) (s₀ : State) : RunAfter dir b s₀ 0 (acceptBlock dir b s₀) := by
  constructor <;> simp [halfStates]
  rfl

theorem runAfter_step {dir : Bool} {b : Block} {s₀ s : State} {n : Nat} (p : Pins) (hp : p.rst = false)
    (h : RunAfter dir b s₀ n s) (hn : n < 16) : RunAfter dir b s₀ (n + 1) (edgeNext p s) := by
  have hst := h.fsm
  have hr := h.round
  have hv := h.valid
  have ho := h.result
  rw [if_pos hn] at hst hr hv ho
  rw [edgeNext_of (edge_of_run hp hst)]
  have hd : s.dir = dir := by rw [h.frame]
  have hsk : s.sk = s₀.sk := by rw [h.frame]
  have hh : feistelRound (readSubkey s.sk (subkeyIndex s.dir s.rnd)) (s.l, s.r)
      = halfStates s₀.sk dir (startHalves b) (n + 1) := by rw [hr, h.halves, hd, hsk]; rfl
  have e15 : s.rnd = 15 ↔ n = 15 := by rw [hr]; exact round_ofNat_eq_last hn
  refine ⟨by rw [← hh]; rfl, ?_, ?_, ?_, ?_, ?_⟩
  · simp only [runStep_st, e15, hst]
    by_cases e : n = 15 <;> simp [e]
    omega
  · simp only [runStep_rnd, e15]
    by_cases e : n = 15
    · simp [e, hr]
    · rw [if_neg e, if_pos (by omega), hr, round_ofNat_succ (by omega)]
  · simp only [runStep_doutValid, e15, hv]
    by_cases e : n = 15 <;> simp [e]
    omega
  · simp only [runStep_dout, e15, ho, hh]
    by_cases e : n = 15
    · simp [e, crypt]
    · rw [if_neg e, if_pos (by omega)]
  · have := h.frame
    rw [this]
    rfl

/-- Any edges without a reset, up to the sixteen steps. -/
theorem runAfter_edges {dir : Bool} {b : Block} {s₀ s : State} {n : Nat} (ps : List Pins) (hp : NoReset ps)
    (h : RunAfter dir b s₀ n s) (hn : n + ps.length ≤ 16) :
    ∃ t, runEdges ps s = .next t ∧ RunAfter dir b s₀ (n + ps.length) t := by
  induction ps generalizing n s with
  | nil => exact ⟨s, rfl, h⟩
  | cons p ps ih =>
    simp only [List.length_cons] at hn
    rw [runEdges_cons]
    have := runAfter_step p (hp p (by simp)) h (by omega)
    obtain ⟨t, h1, h2⟩ := ih (fun q hq => hp q (by simp [hq])) this (by omega)
    exact ⟨t, h1, by rwa [List.length_cons, ← show n + 1 + ps.length = n + (ps.length + 1) by omega]⟩

/-- After sixteen steps the state is that of the command-level ENC or DEC (rule R254). -/
theorem runAfter_sixteen {dir : Bool} {b : Block} {s₀ s : State} (h : RunAfter dir b s₀ 16 s) :
    s = cryptBlock dir b s₀ := by
  have e := h.frame
  have hlr := h.halves
  rw [e, h.fsm, h.round, h.valid, h.result, show s.l = _ from congrArg Prod.fst hlr,
    show s.r = _ from congrArg Prod.snd hlr]
  rfl

end Sys2Proof.Machine
end

