-- ==== Sys2Proof/Tests/Slice0.lean ====
section
/-! SUPPORT. The model's own tests. Every expected value is written out from the spec, whose place each section names: 30_encoding.md for
the words, 95_test_vectors.md section 3 for the vectors. The last section shows, for every statement with hypotheses, that they
can be met together. -/

namespace Sys2Proof.Machine.Tests

/-! ### Small states -/

/-- The known-answer key (95_test_vectors.md section 1.1). -/
def katKey : Block := 0x133457799BBCDFF1#64

/-- The known-answer plaintext. -/
def katBlock : Block := 0x0123456789ABCDEF#64

/-- The known-answer ciphertext. -/
def katCipher : Block := 0x85E813540F0AB405#64

/-- The subkey column of 95_test_vectors.md section 3.3. -/
def katSubkeys : SubkeyFile :=
  #v[0x1B02EFFC7072#48, 0x79AED9DBC9E5#48, 0x55FC8A42CF99#48, 0x72ADD6DB351D#48,
    0x7CEC07EB53A8#48, 0x63A53E507B2F#48, 0xEC84B7F618BC#48, 0xF78A3AC13BFB#48,
    0xE0DBEBEDE781#48, 0xB1F347BA464F#48, 0x215FD3DED386#48, 0x7571F59467E9#48,
    0x97C5D1FABA41#48, 0x5F43B7F2E73A#48, 0xBF918D3D3F0A#48, 0xCB3D8B0E17F5#48]

/-- IDLE with the known-answer key loaded: after edge 17 of program P1. -/
def keyed : State :=
  { State.reset with
    key := katKey, sk := katSubkeys, keyValid := true, c := 0xF0CCAAF#28, d := 0x556678F#28, rnd := 15 }

/-- KS with the first `k` rounds still to be counted by `rnd`, from the halves of the known-answer key. -/
def scheduling (k : Round) : State :=
  { State.reset with key := katKey, c := 0xF0CCAAF#28, d := 0x556678F#28, rnd := k, st := .ks }

/-- RUN at round `k`, from the halves of the known-answer plaintext. -/
def running (k : Round) (dir : Bool) : State :=
  { keyed with l := 0xCC00CCFF#32, r := 0xF0AAF0AA#32, rnd := k, dir := dir, st := .run }

/-- FAULT with NO_KEY. -/
def faulted : State := { State.reset with err := 0b10#2, st := .fault }

/-- Sixteen quiet edges. -/
def quietSteps : List Pins := List.replicate 16 .quiet

/-- The next state, if there is one. -/
def nextOf : Host.Outcome State Fault Refusal → Option State
  | .next t => some t
  | .fault _ => none
  | .refused _ => none

/-- The bytes of a byte-level result, if it has any. -/
def nextBytes : Except Fault (List Byte) → Option (List Byte)
  | .ok bs => some bs
  | .error _ => none

/-! ### The checks of WellFormed refuse ill-formed terms (30_encoding.md rules R102, R105, R106; 40_tables.md rules R147) -/

theorem test_wf_word_op_zero : CmdWord.wf 0b00000000#8 = false := by decide
theorem test_wf_word_reserved_low : CmdWord.wf 0b00000101#8 = false := by decide
theorem test_wf_word_reserved_high : CmdWord.wf 0b10000001#8 = false := by decide
theorem test_wf_words_legal : ([0b00000001#8, 0b00000010#8, 0b00000011#8].all CmdWord.wf) = true := by decide
theorem test_wf_instr_any_operand : Instr.wf (.ldkey 0) = true ∧ Instr.wf (.enc (-1)) = true ∧ Instr.wf (.dec 1) = true := by
  decide
theorem test_wf_operand_seven_bytes : operandBytesOk (List.replicate 7 0#8) = false := by decide
theorem test_wf_operand_nine_bytes : operandBytesOk (List.replicate 9 0#8) = false := by decide
theorem test_wf_table_entry_zero : permTableOk 4 2 [0, 1] = false := by decide
theorem test_wf_table_entry_above : permTableOk 4 2 [1, 5] = false := by decide
theorem test_wf_table_length : permTableOk 4 3 [1, 4] = false := by decide
theorem test_wf_sbox_entry_above : sboxTableOk (List.replicate 63 0 ++ [16]) = false := by decide
theorem test_wf_sbox_length : sboxTableOk (List.replicate 63 0) = false := by decide
theorem test_wf_rot_amount_three : rotTableOk ([3] ++ List.replicate 10 2 ++ List.replicate 5 1) = false := by decide
theorem test_wf_rot_sum : rotTableOk (List.replicate 16 2) = false := by decide
theorem test_wf_rot_length : rotTableOk (List.replicate 14 2) = false := by decide

/-! ### Decoding, the words bit by bit (30_encoding.md rule R104: bits 7:2 `rsv`, bits 1:0 `op`) -/

theorem test_decode_ldkey : decode 0b00000001#8 katKey = .ok (.ldkey 0x133457799BBCDFF1#64) := by decide
theorem test_decode_enc : decode 0b00000010#8 katBlock = .ok (.enc 0x0123456789ABCDEF#64) := by decide
theorem test_decode_dec : decode 0b00000011#8 katCipher = .ok (.dec 0x85E813540F0AB405#64) := by decide
theorem test_decode_op_zero : decode 0b00000000#8 katKey = .error .opZero := by decide
theorem test_decode_reserved : decode 0b00000101#8 katKey = .error (.reservedField 0b000001#6) := by decide
theorem test_decode_reserved_top : decode 0b10000010#8 katKey = .error (.reservedField 0b100000#6) := by decide
theorem test_encode_words :
    (encode (.ldkey 0)).1 = 0b00000001#8 ∧ (encode (.enc 0)).1 = 0b00000010#8 ∧ (encode (.dec 0)).1 = 0b00000011#8 := by
  decide
/-- 95_test_vectors.md section 3.6: three words decode, 253 do not. -/
theorem test_decode_count : ((List.range 256).filter fun w => (decodeTableWord 8 w).isSome) = [1, 2, 3] := by decide +kernel
/-- The operand's bits are 71:8 of the table's numbering; the rows give it none, so it is zero there. -/
theorem test_table_operand : decodeTableWord 72 0x0123456789ABCDEF02 = some (.enc 0x0123456789ABCDEF#64) ∧
    decodeTableWord 8 0x0123456789ABCDEF02 = some (.enc 0) := by decide

/-! ### Bit addressing and byte order (95_test_vectors.md section 3.1; 20_memory.md rule R72) -/

theorem test_get_bit : getBit [0x80#8, 0x01#8] 0 = .ok true ∧ getBit [0x80#8, 0x01#8] 7 = .ok false ∧
    getBit [0x80#8, 0x01#8] 15 = .ok true ∧ getBit [0x80#8, 0x01#8] 16 = .error (.bitRange 16 2) :=
  ⟨rfl, rfl, rfl, rfl⟩
theorem test_set_bit : setBit [0x00#8, 0x00#8] 9 true = .ok [0x00#8, 0x40#8] ∧ setBit [0xFF#8] 7 false = .ok [0xFE#8] ∧
    setBit [0xFF#8] 0 true = .ok [0xFF#8] ∧ setBit [0xFF#8] 8 true = .error (.bitRange 8 1) :=
  ⟨rfl, rfl, rfl, rfl⟩
theorem test_bytes_of_key :
    bytesOf katKey = [0x13#8, 0x34#8, 0x57#8, 0x79#8, 0x9B#8, 0xBC#8, 0xDF#8, 0xF1#8] := by decide +kernel
theorem test_word_of_bytes :
    wordOfBytes 64 [0x13#8, 0x34#8, 0x57#8, 0x79#8, 0x9B#8, 0xBC#8, 0xDF#8, 0xF1#8] = katKey := by decide +kernel

/-! ### The permutation engine on the fixed tables (95_test_vectors.md section 3.1) -/

theorem test_permute_ip : permute ipTable 0x8000000000000000#64 = 0x0000000001000000#64 ∧
    permute ipTable 0x0000000000000001#64 = 0x0000008000000000#64 ∧
    permute ipTable katBlock = 0xCC00CCFFF0AAF0AA#64 := by decide +kernel
theorem test_permute_fp : permute fpTable 0x8000000000000000#64 = 0x0000000000000040#64 ∧
    permute fpTable 0x0A4CD99543423234#64 = katCipher := by decide +kernel
theorem test_permute_pc1 : permute pc1Table katKey = 0xF0CCAAF556678F#56 ∧
    permute pc1Table 0x8001010101010101#64 = 0x01000000000000#56 := by decide +kernel
theorem test_permute_pc2 : permute pc2Table 0x80000000000000#56 = 0x080000000000#48 ∧
    permute pc2Table 0xE19955FAACCF1E#56 = 0x1B02EFFC7072#48 := by decide +kernel
theorem test_permute_e : permute eTable 0x80000000#32 = 0x400000000001#48 ∧
    permute eTable 0x00000001#32 = 0x800000000002#48 ∧
    permute eTable 0xF0AAF0AA#32 = 0x7A15557A1555#48 := by decide +kernel
theorem test_permute_p : permute pTable 0x80000000#32 = 0x00800000#32 ∧
    permute pTable 0x00000001#32 = 0x00000800#32 ∧ permute pTable 0x5C82B597#32 = 0x234AA9BB#32 := by decide +kernel
theorem test_permute_bytes : nextBytes (permuteBytes [0xF0#8, 0xAA#8, 0xF0#8, 0xAA#8] eTable.entries)
    = some [0x7A#8, 0x15#8, 0x55#8, 0x7A#8, 0x15#8, 0x55#8] := by decide +kernel
/-- 41_bit_permutation.md rule R167: entries 0 and `n + 1` are out of range. -/
theorem test_permute_range : permuteChecked [1, 0] 0xFF#8 = .error (.bitRange (-1) 1) ∧
    permuteChecked [8, 9] 0xFF#8 = .error (.bitRange 8 1) ∧
    permuteBytes [0xFF#8] [1, 0] = .error (.bitRange (-1) 1) ∧
    permuteBytes [0xFF#8] [8, 9] = .error (.bitRange 8 1) := ⟨rfl, rfl, rfl, rfl⟩

/-! ### Substitution, rotation, the round function (95_test_vectors.md sections 3.2, 3.4) -/

theorem test_sbox_corners : (List.finRange 8).map (fun j => (sbox j 0b000000#6).toNat) = [14, 15, 10, 7, 2, 12, 4, 13] ∧
    (List.finRange 8).map (fun j => (sbox j 0b111111#6).toNat) = [13, 9, 12, 14, 3, 13, 12, 11] ∧
    (List.finRange 8).map (fun j => (sbox j 0b100000#6).toNat) = [4, 0, 13, 10, 4, 9, 1, 7] ∧
    (List.finRange 8).map (fun j => (sbox j 0b000001#6).toNat) = [0, 3, 13, 13, 14, 10, 13, 1] ∧
    (List.finRange 8).map (fun j => (sbox j 0b011110#6).toNat) = [7, 10, 8, 15, 9, 11, 1, 7] ∧
    (List.finRange 8).map (fun j => (sbox j 0b100001#6).toNat) = [15, 13, 1, 3, 11, 4, 6, 2] := by decide +kernel
theorem test_rotl28 : rotl28 0x8000000#28 1 = 0x0000001#28 ∧ rotl28 0x8000000#28 2 = 0x0000002#28 ∧
    rotl28 0xC000001#28 2 = 0x0000007#28 ∧ rotl28 0xF0CCAAF#28 1 = 0xE19955F#28 := by decide
theorem test_round_function : roundF 0xF0AAF0AA#32 0x1B02EFFC7072#48 = 0x234AA9BB#32 ∧
    roundF 0xFFFFFFFF#32 0x000000000000#48 = 0x38DBF9CB#32 ∧
    roundF 0xEF4A6544#32 0x79AED9DBC9E5#48 = 0x3CAB87A3#32 := by decide +kernel

/-! ### Key schedule and cipher as functions (95_test_vectors.md sections 3.3, 3.5) -/

theorem test_key_schedule : keySchedule katKey = katSubkeys := by decide +kernel
theorem test_kat_encrypt : crypt katSubkeys katBlock false = katCipher := by decide +kernel
theorem test_kat_decrypt : crypt katSubkeys katCipher true = katBlock := by decide +kernel

/-! ### One step of each command (95_test_vectors.md sections 3.3, 3.5, 3.6) -/

theorem test_ldkey_accept : (nextOf (exec (.ldkey katKey) { keyed with doutValid := true })).map
    (fun t => (t.key, t.c, t.d, t.rnd, t.status)) = some (katKey, 0xF0CCAAF#28, 0x556678F#28, 0, 0x05#8) := by decide +kernel
theorem test_ldkey_first_step : (nextOf (edge .quiet (scheduling 0))).map
    (fun t => (t.c, t.d, readSubkey t.sk 0, t.rnd)) = some (0xE19955F#28, 0xAACCF1E#28, 0x1B02EFFC7072#48, 1) := by
  decide +kernel
theorem test_enc_accept : (nextOf (exec (.enc katBlock) { keyed with doutValid := true, dout := katCipher, dir := true })).map
    (fun t => (t.l, t.r, t.dir, t.dout, t.status)) = some (0xCC00CCFF#32, 0xF0AAF0AA#32, false, katCipher, 0x03#8) := by
  decide +kernel
theorem test_enc_first_step : (nextOf (edge .quiet (running 0 false))).map
    (fun t => (t.l, t.r, t.rnd)) = some (0xF0AAF0AA#32, 0xEF4A6544#32, 1) := by decide +kernel
theorem test_dec_accept : (nextOf (exec (.dec katCipher) keyed)).map
    (fun t => (t.l, t.r, t.dir, t.rnd)) = some (0x0A4CD995#32, 0x43423234#32, true, 0) := by decide +kernel
/-- The last RUN step of the known-answer DEC reads `SK[0]` and delivers the plaintext. -/
theorem test_dec_last_step : (nextOf (edge .quiet { running 15 true with l := 0xEF4A6544#32, r := 0xF0AAF0AA#32 })).map
    (fun t => (t.l, t.r, t.dout, t.status)) = some (0xF0AAF0AA#32, 0xCC00CCFF#32, katBlock, 0x06#8) := by decide +kernel
/-- The last RUN step of the known-answer ENC, `SK[15]`. -/
theorem test_enc_last_step : (nextOf (edge .quiet { running 15 false with l := 0xC28C960D#32, r := 0x43423234#32 })).map
    (fun t => (t.l, t.r, t.dout)) = some (0x43423234#32, 0x0A4CD995#32, katCipher) := by decide +kernel

/-! ### Faults and reset at one edge (95_test_vectors.md section 3.6) -/

theorem test_no_key : (nextOf (exec (.enc katBlock) State.reset)).map State.outputs
    = some { cmdReady := false, dout := 0, status := 0x28#8 } := by decide +kernel
theorem test_illegal_word : (nextOf (edge (.present 0x05#8 katKey) State.reset)).map State.outputs
    = some { cmdReady := false, dout := 0, status := 0x18#8 } := by decide +kernel
theorem test_illegal_word_keeps_result :
    (nextOf (edge (.present 0xFF#8 0) { keyed with doutValid := true, dout := katCipher })).map State.outputs
      = some { cmdReady := false, dout := katCipher, status := 0x1E#8 } := by decide +kernel
theorem test_reset_leaves_fault : (nextOf (edge .resetEdge faulted)).map State.outputs
    = some { cmdReady := true, dout := 0, status := 0x00#8 } := by decide +kernel
theorem test_with_fetch_word : (nextOf (step (State.reset.withFetchWord 8 0x01))).map State.status = some 0x01#8 ∧
    (nextOf (step (State.reset.withFetchWord 8 0x02))).map State.status = some 0x28#8 ∧
    (nextOf (step (State.reset.withFetchWord 8 0x05))).map State.status = some 0x18#8 := by decide +kernel

/-! ### The script's text (30_encoding.md rule R107) -/

theorem test_parse_hex : parseLine "LDKEY 0x133457799BBCDFF1".toList = .line (.ldkey (.hex katKey)) := by decide +kernel
theorem test_parse_bytes : parseLine "DEC [13 34 57 79 9B BC DF F1] -- c".toList
    = .line (.dec (.bytes #v[0x13#8, 0x34#8, 0x57#8, 0x79#8, 0x9B#8, 0xBC#8, 0xDF#8, 0xF1#8])) := by decide +kernel
theorem test_parse_raw : parseLine "RAW   0x07, 0x0000000000000000".toList = .line (.raw 0x07#8 (.hex 0)) := by
  decide +kernel
theorem test_parse_refuses : parseLine "ENC 0x0123".toList = .malformed ∧ parseLine "enc 0x0000000000000000".toList = .malformed ∧
    parseLine "ENC [00 01 02 03 04 05 06]".toList = .malformed := by decide +kernel
theorem test_spellings_agree : (ScriptLine.ldkey (.bytes #v[0x13#8, 0x34#8, 0x57#8, 0x79#8, 0x9B#8, 0xBC#8, 0xDF#8, 0xF1#8])).action
    = (ScriptLine.ldkey (.hex katKey)).action := by decide +kernel

/-! ### Witnesses: the hypotheses of each statement can be met together -/

theorem witness_DecodeClassifiesEveryWord :
    ∀ w ∈ [0x00#8, 0x04#8, 0xFF#8], (w : CmdWord) ≠ 0x01#8 ∧ w ≠ 0x02#8 ∧ w ≠ 0x03#8 := by decide

theorem witness_DecodeInvertsEncode : encode (.dec katBlock) = (0x03#8, katBlock) ∧
    decode 0x03#8 katBlock = .ok (.dec katBlock) ∧ encode (.dec katBlock) ≠ (0x07#8, katBlock) := by decide

theorem witness_BytesHoldPositionsMsbFirst : (7 < 8 ∧ 63 < 8 * 8) ∧
    (bytesOf katKey)[7]? = some 0xF1#8 ∧ pos katKey 63 = true ∧ pos katKey 0 = false ∧ pos katKey 3 = true := by decide +kernel

theorem witness_BitAddressingHasAWordForm : 63 < 8 * 8 ∧ 0 < 8 * 8 := by decide

theorem witness_BitAddressingReadsAndSetsOneBit :
    [0x80#8, 0x01#8][15 / 8]? = some 0x01#8 ∧ 8 * [0x80#8, 0x01#8].length ≤ 16 ∧ [0x80#8, 0x01#8][16 / 8]? = none := by decide

theorem witness_SetBitThenGetBit : 15 < 8 * [0x80#8, 0x01#8].length ∧ 14 < 8 * [0x80#8, 0x01#8].length ∧ (14 : Nat) ≠ 15 := by
  decide

theorem witness_OutOfRangeIsBitRange : 8 * [0x80#8, 0x01#8].length ≤ 16 ∧ (∃ t ∈ [1, 0], t < 1 ∨ 8 < t) ∧
    (∃ t ∈ [8, 9], t < 1 ∨ 8 < t) ∧ ∃ t ∈ [17], t < 1 ∨ 8 * [0x80#8, 0x01#8].length < t := by decide

theorem witness_PermutePicksEachEntry : 63 < ipTable.entries.length ∧ 55 < pc1Table.entries.length := by decide

theorem witness_FixedTablesHaveTheirShapes : 56 ∈ pc2Table.entries ∧ 1 ∈ pc2Table.entries.take 24 ∧
    29 ∈ pc2Table.entries.drop 24 := by decide

theorem witness_RotationMovesTowardPositionZero :
    ((1 = 1 ∨ 1 = 2) ∧ 27 < 28) ∧ ((2 = 1 ∨ 2 = 2) ∧ 27 < 28) := by decide

theorem witness_RotationIsCumulative : State.reset.st = .idle ∧ NoReset quietSteps ∧
    quietSteps.length = (15 : Round).toNat + 1 ∧ (quietSteps.take 1).length = (0 : Round).toNat + 1 := by decide

theorem witness_LdkeyAcceptanceWrites : keyed.st = .idle ∧ State.reset.st = .idle := by decide

theorem witness_KeyScheduleStepWrites : Pins.quiet.rst = false ∧ (scheduling 15).st = .ks ∧ (scheduling 15).rnd = 15 ∧
    (scheduling 14).st = .ks ∧ (scheduling 14).rnd ≠ 15 := by decide

theorem witness_KeyScheduleStepsComputeTheSchedule : State.reset.st = .idle ∧ NoReset quietSteps ∧
    quietSteps.length = (15 : Round).toNat + 1 ∧ (15 : Round) ≤ 15 := by decide

theorem witness_LdkeyCompletes : State.reset.st = .idle ∧ CommandSteps quietSteps := by decide

/-- The known-answer key and the same key with every parity bit flipped (95_test_vectors.md section 3.3). -/
theorem witness_ParityBitsAreIgnored : katKey ≠ 0x123556789ABDDEF0#64 ∧
    ∀ p, p < 64 → p % 8 ≠ 7 → pos katKey p = pos 0x123556789ABDDEF0#64 p := by decide +kernel

theorem witness_SchedulesAgreeIffReducedKeysAgree :
    (∀ p, p < 64 → p % 8 ≠ 7 → pos katKey p = pos 0x123556789ABDDEF0#64 p) ∧
    ¬∀ p, p < 64 → p % 8 ≠ 7 → pos katKey p = pos 0x933457799BBCDFF1#64 p := by decide +kernel

/-- The constant-half keys of 95_test_vectors.md section 3.3. -/
theorem witness_ConstantHalvesGiveEqualSubkeys :
    splitKey (permute pc1Table 0x1F1F1F1F0E0E0E0E#64) = (0, BitVec.allOnes 28) ∧
    splitKey (permute pc1Table 0xE0E0E0E0F1F1F1F1#64) = (BitVec.allOnes 28, 0) := by decide +kernel

theorem witness_ExpansionSeesNeighbourBits : 7 < 8 ∧ 5 < 6 ∧ (4 * 7 + 5 + 31) % 32 = 0 := by decide

theorem witness_RoundFunctionJoinsNibbles : 3 < 4 ∧ 5 < 6 ∧ 6 * (7 : Fin 8).val + 5 = 47 := by decide

theorem witness_BlockAcceptanceWrites : keyed.st = .idle ∧ keyed.keyValid = true := by decide

theorem witness_RunStepWrites : Pins.quiet.rst = false ∧ (running 15 true).st = .run ∧ (running 15 true).rnd = 15 ∧
    (running 14 false).st = .run ∧ (running 14 false).rnd ≠ 15 := by decide

theorem witness_EncCompletes : keyed.st = .idle ∧ keyed.keyValid = true ∧ CommandSteps quietSteps ∧
    keyed.sk = keySchedule keyed.key :=
  ⟨rfl, rfl, by decide, test_key_schedule.symm⟩

theorem witness_DecCompletes : keyed.st = .idle ∧ keyed.keyValid = true ∧ CommandSteps quietSteps ∧
    keyed.sk = keySchedule keyed.key :=
  ⟨rfl, rfl, by decide, test_key_schedule.symm⟩

theorem witness_DecHalfStatesReverseEnc : 16 ≤ 16 ∧ 0 ≤ 16 := by decide

theorem witness_EqualSubkeysMakeEncAnInvolution :
    ∀ i j : Round, readSubkey (Vector.replicate 16 0x000000FFFFFF#48) i
      = readSubkey (Vector.replicate 16 0x000000FFFFFF#48) j := by decide +kernel

theorem witness_ResetLoadEncDecReturnsTheBlock : Pins.resetEdge.rst = true ∧ CommandSteps quietSteps := by decide

theorem witness_EdgesRefineCommandLevel : (keyed.st = .idle ∨ keyed.st = .fault) ∧ (faulted.st = .idle ∨ faulted.st = .fault) ∧
    ∀ c ∈ [(Instr.ldkey katKey, quietSteps), (Instr.enc katBlock, quietSteps)], CommandSteps c.2 := by decide

theorem witness_ViolationsRaiseTheirFaults : State.reset.st = .idle ∧ State.reset.keyValid = false ∧
    ∀ w ∈ [0x00#8, 0x04#8, 0xFF#8], (Pins.present w katKey).rst = false ∧ (Pins.present w katKey).cmdValid = true ∧
      (Pins.present w katKey).cmdWord ∉ [0x01#8, 0x02#8, 0x03#8] := by decide

theorem witness_FaultLastsUntilReset : faulted.st = .fault ∧ NoReset quietSteps ∧ Pins.resetEdge.rst = true := by decide

theorem witness_OnlyTwoCausesOfFault :
    (∃ t, edge (.present 0x00#8 0) keyed = .next t ∧ keyed.st ≠ .fault ∧ t.st = .fault) ∧
    ∃ t, edge (.present 0x02#8 0) State.reset = .next t ∧ State.reset.st ≠ .fault ∧ t.st = .fault :=
  ⟨⟨_, rfl, by decide, by decide⟩, ⟨_, rfl, by decide, by decide⟩⟩

theorem witness_ResetEdgeWrites : Pins.resetEdge.rst = true ∧
    ({ Pins.present 0x01#8 katKey with rst := true } : Pins).rst = true := by decide

theorem witness_OutputsAfterReset : Pins.resetEdge.rst = true := by decide

theorem witness_ResetInsideCommandNeedsNewKey : Pins.resetEdge.rst = true ∧
    (Instr.enc katBlock = .enc katBlock ∨ Instr.enc katBlock = .dec katBlock) ∧
    (Instr.dec katBlock = .enc katBlock ∨ Instr.dec katBlock = .dec katBlock) := by decide

theorem witness_OutputsIgnoreUnresetRegisters : Pins.resetEdge.rst = true ∧ keyed.key ≠ State.reset.key := by decide

theorem witness_ResetMeetsInvariant : Pins.resetEdge.rst = true ∧ ∃ t, edge .resetEdge faulted = .next t :=
  ⟨rfl, _, rfl⟩

/-- A keyed engine has the invariant. -/
theorem keyed_inv : Inv keyed where
  faultCode := by decide
  noFaultCode := by decide
  noKeyMeansNoKey := by decide
  keyScheduling h := by exact absurd h (by decide)
  running h := by exact absurd h (by decide)
  keyed _ := ⟨test_key_schedule.symm, by decide +kernel⟩
  noStaleResult := by decide
  restingRound := by decide

/-- So does an engine in the middle of a command. -/
theorem running_inv : Inv (running 14 true) where
  faultCode := by decide
  noFaultCode := by decide
  noKeyMeansNoKey := by decide
  keyScheduling h := by exact absurd h (by decide)
  running _ := by decide
  keyed _ := ⟨test_key_schedule.symm, by decide +kernel⟩
  noStaleResult := by decide
  restingRound h := by exact absurd h (by decide)

/-- And one at the start of the key schedule. -/
theorem scheduling_inv : Inv (scheduling 0) where
  faultCode := by decide
  noFaultCode := by decide
  noKeyMeansNoKey := by decide
  keyScheduling _ := ⟨rfl, by decide +kernel, fun j h => by exact absurd h (Nat.not_lt_zero _)⟩
  running h := by exact absurd h (by decide)
  keyed h := by exact absurd h (by decide)
  noStaleResult := by decide
  restingRound h := by exact absurd h (by decide)

/-- And one that raised NO_KEY after a reset. -/
theorem faulted_inv : Inv faulted where
  faultCode := by decide
  noFaultCode := by decide
  noKeyMeansNoKey := by decide
  keyScheduling h := by exact absurd h (by decide)
  running h := by exact absurd h (by decide)
  keyed h := by exact absurd h (by decide)
  noStaleResult := by decide
  restingRound := by decide

theorem witness_StepKeepsInvariant : (Inv keyed ∧ ∃ t, step keyed = .next t) ∧
    Inv (running 14 true) ∧ ∃ t, edge .quiet (running 14 true) = .next t :=
  ⟨⟨keyed_inv, _, rfl⟩, running_inv, _, rfl⟩

theorem witness_StatusTakesTenValues : Inv keyed ∧ keyed.status = 0x02#8 ∧ Inv (running 14 true) ∧ (running 14 true).status = 0x03#8 :=
  ⟨keyed_inv, by decide, running_inv, by decide⟩

/-- Every register's premise is met by some edge: each changes where its rule writes it. -/
theorem witness_EachRegisterHasItsWriters :
    (edgeNext (.present 0x01#8 katKey) State.reset).key ≠ State.reset.key ∧
    (edgeNext (.present 0x01#8 katKey) State.reset).c ≠ State.reset.c ∧
    (edgeNext (.present 0x01#8 katKey) keyed).keyValid ≠ keyed.keyValid ∧
    (edgeNext (.present 0x01#8 katKey) keyed).rnd ≠ keyed.rnd ∧
    readSubkey (edgeNext .quiet (scheduling 14)).sk 14 ≠ readSubkey (scheduling 14).sk 14 ∧
    (edgeNext .quiet (scheduling 14)).d ≠ (scheduling 14).d ∧
    (edgeNext .quiet (scheduling 15)).keyValid ≠ (scheduling 15).keyValid ∧
    (edgeNext (.present 0x03#8 katCipher) keyed).l ≠ keyed.l ∧
    (edgeNext (.present 0x03#8 katCipher) keyed).dir ≠ keyed.dir ∧
    (edgeNext .quiet (running 14 false)).r ≠ (running 14 false).r ∧
    (edgeNext (.present 0x01#8 katKey) State.reset).st ≠ State.reset.st ∧
    (edgeNext .quiet (scheduling 15)).st ≠ (scheduling 15).st ∧
    (edgeNext .quiet (running 15 false)).st ≠ (running 15 false).st ∧
    (edgeNext .quiet (running 15 false)).dout ≠ (running 15 false).dout ∧
    (edgeNext .quiet (running 15 false)).doutValid ≠ (running 15 false).doutValid ∧
    (edgeNext (.present 0x00#8 0) keyed).err ≠ keyed.err := by decide +kernel

/-- Two running engines that differ in every hidden register of the datapath. -/
theorem witness_HiddenRegistersStayHidden :
    let s := running 14 false
    let t := { running 14 true with l := 0, r := 0, c := 0, d := 0, key := 0, sk := Vector.replicate 16 0 }
    s.outputs = t.outputs ∧ s.st = t.st ∧ s.rnd = t.rnd ∧ ¬(s.st = .run ∧ s.rnd = 15) := by decide

theorem witness_AcceptanceIsTheHandshake :
    (accepts (.present 0x01#8 katKey) keyed = true ∧ decode 0x01#8 katKey = .ok (.ldkey katKey)) ∧
    (accepts (.present 0x01#8 katKey) (scheduling 0) = false ∧ accepts .quiet (scheduling 0) = false ∧
      (Pins.present 0x01#8 katKey).rst = Pins.quiet.rst) ∧
    faulted.cmdReady = false := by decide

theorem witness_FsmTableRows : Pins.resetEdge.rst = true ∧ Pins.quiet.rst = false ∧ Pins.quiet.cmdValid = false ∧
    State.reset.st = .idle ∧ (∀ w d, (Pins.present w d).cmdValid = true ∧ (Pins.present w d).rst = false) ∧
    decode 0xFF#8 katKey = .error (.reservedField 0b111111#6) ∧ decode 0x00#8 katKey = .error .opZero ∧
    decode 0x01#8 katKey = .ok (.ldkey katKey) ∧
    decode 0x02#8 katBlock = .ok (if false then .dec katBlock else .enc katBlock) ∧
    decode 0x03#8 katBlock = .ok (if true then .dec katBlock else .enc katBlock) ∧
    keyed.st = .idle ∧ keyed.keyValid = true ∧ State.reset.keyValid = false ∧
    (scheduling 15).st = .ks ∧ (running 15 false).st = .run ∧ faulted.st = .fault :=
  ⟨rfl, rfl, rfl, rfl, fun _ _ => ⟨rfl, rfl⟩, rfl, rfl, rfl, rfl, rfl, rfl, rfl, rfl, rfl, rfl, rfl⟩

theorem witness_CommandTakesSeventeenEdges : keyed.st = .idle ∧ keyed.keyValid = true ∧ NoReset quietSteps ∧
    quietSteps.length = 16 ∧ (quietSteps.take 15).length < 16 := by decide

theorem witness_StepRunsTheDecodedCommand :
    (∃ t, ({ keyed with script := [.command 0x02#8 katBlock] } : State).script = .command 0x02#8 katBlock :: [] ∧
      keyed.st = .idle ∧ decode 0x02#8 katBlock = .ok (.enc katBlock) ∧
      exec (.enc katBlock) { keyed with script := [.command 0x02#8 katBlock] } = .next t) ∧
    ∃ t, decodeTableWord 8 0x03 = some (.dec 0) ∧ exec (.dec 0) { keyed with st := .idle } = .next t :=
  ⟨⟨_, rfl, rfl, rfl, rfl⟩, ⟨_, by decide, rfl⟩⟩

theorem witness_CommandLineWaitsForReady :
    (∀ k ∈ [0, 15], ((scheduling k).st = .ks ∨ (scheduling k).st = .run) ∧
      ((running k false).st = .ks ∨ (running k false).st = .run)) ∧
    ({ scheduling 15 with script := [.command 0x02#8 katBlock] } : State).script = .command 0x02#8 katBlock :: [] :=
  ⟨by decide, rfl⟩

theorem witness_CommandLineInFaultWaitsForever : faulted.st = .fault ∧
    ({ faulted with script := [.command 0x01#8 katKey] } : State).script = .command 0x01#8 katKey :: [] := ⟨rfl, rfl⟩

theorem witness_HostActionsFollowTheScript :
    (∀ a ∈ [HostAction.reset, .wait, .read, .drive .resetEdge, .command 0x01#8 katKey],
      ({ keyed with script := [a] } : State).script = a :: []) ∧
    ({ faulted with script := [.command 0x01#8 katKey] } : State).st = .fault := ⟨by decide, rfl⟩

theorem witness_OperandSpellingsAgree :
    bytesOf katKey = (#v[0x13#8, 0x34#8, 0x57#8, 0x79#8, 0x9B#8, 0xBC#8, 0xDF#8, 0xF1#8] : Vector Byte 8).toList ∧
    (List.replicate 8 0#8).length = 8 ∧ (List.replicate 7 0#8).length ≠ 8 ∧
    (List.replicate 9 0#8).length ≠ 8 := by decide +kernel

end Sys2Proof.Machine.Tests
end

section
/-! PROOFS. The byte order and the bit positions of a value (20_memory.md rule R72). -/

namespace Sys2Proof.Machine

/-- Byte `j` of a value (rule R72). -/
theorem getElem_bytesOf {n : Nat} (v : BitVec n) {j : Nat} (h : j < (bytesOf v).length) :
    (bytesOf v)[j] = v.extractLsb' (n - 8 - 8 * j) 8 := by
  simp [bytesOf]

/-- Inside the width, position `p` is bit `n-1-p` (00_scope.md rule R11). -/
theorem pos_eq_getLsbD {n : Nat} (v : BitVec n) {p : Nat} (h : p < n) : pos v p = v.getLsbD (n - 1 - p) := by
  simp [BitVec.getMsbD_eq_getLsbD, h]

/-- A whole-byte value is read back from its bytes: bit `i` lies in byte `N-1-i/8`, at place `i % 8`. -/
@[simp] theorem wordOfBytes_bytesOf {N : Nat} (v : BitVec (8 * N)) : wordOfBytes (8 * N) (bytesOf v) = v := by
  refine BitVec.eq_of_getLsbD_eq fun i hi => ?_
  have hbyte : i / 8 < (bytesOf v).length := by rw [bytesOf_length]; omega
  have hplace : 8 * N - 8 - 8 * (N - 1 - i / 8) + i % 8 = i := by omega
  calc (wordOfBytes (8 * N) (bytesOf v)).getLsbD i
      = (v.extractLsb' (8 * N - 8 - 8 * (N - 1 - i / 8)) 8).getLsbD (i % 8) := by
        rw [wordOfBytes_bit _ hi hbyte, getElem_bytesOf, bytesOf_length]
    _ = v.getLsbD i := by
        rw [BitVec.getLsbD_extractLsb', hplace, decide_eq_true (Nat.mod_lt i (by decide)), Bool.true_and]

/-- Settles O4: the clauses are the laws of `bytesOf`, of `pos` and of `wordOfBytes` on the bytes of a value, taken one by
one. -/
theorem bytesHoldPositionsMsbFirst : Obligations.BytesHoldPositionsMsbFirst := by
  intro N v
  refine ⟨bytesOf_length v, fun j hj => ?_, fun p hp => pos_eq_getLsbD v hp, wordOfBytes_bytesOf v⟩
  have hlen : j < (bytesOf v).length := by rwa [bytesOf_length]
  rw [List.getElem?_eq_getElem hlen, getElem_bytesOf]

end Sys2Proof.Machine
end

section
/-! PROOFS. The decoder reads a command only from its own encoding (30_encoding.md rules R102 to R104). -/

namespace Sys2Proof

/-- The two fields of rule R102 are the whole command word. -/
theorem CmdWord.rsv_append_op (w : CmdWord) : w.rsv ++ w.op = w :=
  (BitVec.extractLsb'_append_extractLsb'_eq_extractLsb' rfl).trans BitVec.extractLsb'_eq_self

/-- A word with a zero reserved field is its operation field behind six zeros. -/
theorem CmdWord.eq_zero_append_op {w : CmdWord} (h : w.rsv = 0) : w = 0#6 ++ w.op :=
  calc w = w.rsv ++ w.op := w.rsv_append_op.symm
    _ = 0#6 ++ w.op := by rw [h]; rfl

/-- What the decoder accepts: a word that encodes the command it answers, with the whole operand. -/
theorem encode_eq_of_decode_eq_ok {w : CmdWord} {d : Block} {i : Instr} (h : decode w d = .ok i) :
    encode i = (w, d) := by
  unfold decode at h
  split_ifs at h with hrsv hop hop hop <;> cases h
  all_goals
    rw [CmdWord.eq_zero_append_op (not_not.mp hrsv), hop]
    rfl

/-- Every command is read back from its word and operand. -/
@[simp] theorem decode_encode (i : Instr) : decode (encode i).1 (encode i).2 = .ok i := by
  cases i with
  | ldkey key => exact (Laws.Encoding.ldkey key).2.2
  | enc block => exact (Laws.Encoding.enc block).2.2
  | dec block => exact (Laws.Encoding.dec block).2.2

/-- Settles O1: the three words are the encodings of the commands, which decode back; a word that decodes at all is the
encoding of one of them, so every other word is rejected. -/
theorem decodeClassifiesEveryWord : Obligations.DecodeClassifiesEveryWord := by
  intro w d
  refine ⟨?_, ?_, ?_, fun hldkey henc hdec => ?_⟩
  · rintro rfl
    exact decode_encode (.ldkey d)
  · rintro rfl
    exact decode_encode (.enc d)
  · rintro rfl
    exact decode_encode (.dec d)
  · cases hdecode : decode w d with
    | error e => exact ⟨e, rfl⟩
    | ok i =>
      have hword : w = (encode i).1 := (congrArg Prod.fst (encode_eq_of_decode_eq_ok hdecode)).symm
      cases i with
      | ldkey => exact absurd hword hldkey
      | enc => exact absurd hword henc
      | dec => exact absurd hword hdec

end Sys2Proof
end

section
/-! PROOFS. Reading and setting one bit of a byte sequence, and the laws of the two together (41_bit_permutation.md rules R160,
R161 and R168). -/

namespace Sys2Proof.Machine

/-- A byte that exists bounds every position inside it. -/
theorem lt_of_getElem?_div_eq_some {data : List Byte} {p : Nat} {b : Byte} (h : data[p / 8]? = some b) :
    p < 8 * data.length := by
  obtain ⟨hlt, -⟩ := List.getElem?_eq_some_iff.mp h
  omega

/-- Inside the sequence `getBit` reads a position of one byte (rule R160). -/
theorem getBit_of_getElem? {data : List Byte} {p : Nat} {b : Byte} (h : data[p / 8]? = some b) :
    getBit data p = .ok (pos b (p % 8)) := by
  obtain ⟨hlt, rfl⟩ := List.getElem?_eq_some_iff.mp h
  rw [getBit_of_lt (lt_of_getElem?_div_eq_some h), pos_eq_getLsbD _ (Nat.mod_lt p (by decide))]

/-- The byte `setBit` writes differs from the old one at the chosen position alone. -/
theorem pos_setByte (b : Byte) (x : Bool) {k : Nat} (hk : k < 8) (q : Nat) :
    pos ((b &&& ~~~(1#8 <<< (7 - k))) ||| ((BitVec.ofBool x).setWidth 8 <<< (7 - k))) q = if q = k then x else pos b q := by
  by_cases hq : q < 8
  · have hplace : 8 - 1 - q = 7 - k ↔ q = k := by omega
    rw [pos_eq_getLsbD _ hq, pos_eq_getLsbD _ hq, setByte_bit b x (by omega) (by omega)]
    simp only [hplace]
  · rw [pos_of_le _ (not_lt.mp hq), pos_of_le b (not_lt.mp hq), if_neg (by omega)]

/-- Inside the sequence `setBit` replaces one byte by another that differs at one position (rule R161). -/
theorem setBit_of_getElem? {data : List Byte} {p : Nat} {b : Byte} (x : Bool) (h : data[p / 8]? = some b) :
    ∃ b', setBit data p x = .ok (data.set (p / 8) b') ∧ ∀ q, pos b' q = if q = p % 8 then x else pos b q := by
  obtain ⟨hlt, rfl⟩ := List.getElem?_eq_some_iff.mp h
  refine ⟨_, ?_, pos_setByte data[p / 8] x (Nat.mod_lt p (by decide))⟩
  unfold setBit
  rw [dif_pos (lt_of_getElem?_div_eq_some h)]

/-- Past the sequence reading is the BitRange fault (rule R160). -/
theorem getBit_of_le {data : List Byte} {p : Nat} (h : 8 * data.length ≤ p) :
    getBit data p = .error (.bitRange p data.length) := by
  unfold getBit
  rw [dif_neg (not_lt.mpr h)]

/-- Past the sequence setting is the BitRange fault (rule R161). -/
theorem setBit_of_le {data : List Byte} {p : Nat} (x : Bool) (h : 8 * data.length ≤ p) :
    setBit data p x = .error (.bitRange p data.length) := by
  unfold setBit
  rw [dif_neg (not_lt.mpr h)]

/-- Setting a bit to the value it has changes nothing: the result has the old length and the old bit at every position. -/
theorem setBit_of_getBit {data : List Byte} {p : Nat} {b : Bool} (hp : p < 8 * data.length) (hget : getBit data p = .ok b) :
    setBit data p b = .ok data := by
  obtain ⟨data', hset, hlen, hbits⟩ := setBit_of_lt b hp
  have hsame : data' = data := bytes_ext hlen fun q hq => by
    rw [hbits q (hlen ▸ hq)]
    split_ifs with hqp
    · rw [hqp, hget]
    · rfl
  rw [hset, hsame]

/-- Settles O6: in range, the byte at `p / 8` is read at one position and replaced by a byte that differs there alone; out of
range, both operations are the fault. -/
theorem bitAddressingReadsAndSetsOneBit : Obligations.BitAddressingReadsAndSetsOneBit := by
  intro data p x
  refine ⟨fun b hb => ⟨getBit_of_getElem? hb, ?_⟩, fun hp => ⟨getBit_of_le hp, setBit_of_le x hp⟩⟩
  obtain ⟨b', hset, hpos⟩ := setBit_of_getElem? x hb
  refine ⟨b', hset, ?_, fun q hq => ?_⟩
  · rw [hpos, if_pos rfl]
  · rw [hpos, if_neg hq]

/-- Settles O7: the first law is `setBit_of_getBit`; the other two are the two branches of `setBit_of_lt`, at `p` and off it. -/
theorem setBitThenGetBit : Obligations.SetBitThenGetBit := by
  intro data p x hp
  obtain ⟨data', hset, hlen, hbits⟩ := setBit_of_lt x hp
  refine ⟨⟨_, getBit_of_lt hp, setBit_of_getBit hp (getBit_of_lt hp)⟩, data', hset, hlen, ?_, fun q hq hqp => ?_⟩
  · rw [hbits p hp, if_pos rfl]
  · rw [hbits q hq, if_neg hqp]

/-- Settles O9: inside the table the entry that `pos_permute` reads is there. -/
theorem permutePicksEachEntry : Obligations.PermutePicksEachEntry := by
  intro n m T v i h
  rw [pos_permute, List.getElem?_eq_getElem h, Option.map_some, Option.getD_some]

end Sys2Proof.Machine
end

section
/-! PROOFS. The rotation of the key halves (42_key_schedule.md rules R183, R187). -/

namespace Sys2Proof.Machine

/-- Below its width `rotl_28` is the library's rotation to the left (rule R183). -/
theorem rotl28_eq_rotateLeft (x : KeyHalf) {s : Nat} (hs : s < 28) : rotl28 x s = x.rotateLeft s :=
  (BitVec.rotateLeft_eq_rotateLeftAux_of_lt hs).symm

/-- A half rotated left, by any amount, reads as many positions further on. -/
theorem pos_rotateLeft (x : KeyHalf) (s : Nat) {p : Nat} (hp : p < 28) : pos (x.rotateLeft s) p = pos x ((p + s) % 28) :=
  BitVec.getMsbD_rotateLeft.trans (by rw [decide_eq_true hp, Bool.true_and, Nat.add_comm])

/-- Settles O14: both amounts are below 28, where `rotl_28` is the library's rotation. -/
theorem rotationMovesTowardPositionZero : Obligations.RotationMovesTowardPositionZero := by
  intro x s hs p hp
  rw [rotl28_eq_rotateLeft x (by omega), pos_rotateLeft x s hp]

/-- The halves after `i` rounds are the starting halves under one rotation, by the sum of the first `i` amounts (rule R187). -/
theorem keyHalves_eq_rotateLeft (K : Block) {i : Nat} (hi : i ≤ 16) :
    keyHalves K i =
      ((splitKey (permute pc1Table K)).1.rotateLeft (rotTable.entries.take i).sum,
        (splitKey (permute pc1Table K)).2.rotateLeft (rotTable.entries.take i).sum) := by
  refine Prod.ext (eq_of_pos fun p hp => ?_) (eq_of_pos fun p hp => ?_)
  · rw [(pos_keyHalves K hi p hp).1, pos_rotateLeft _ _ hp]
  · rw [(pos_keyHalves K hi p hp).2, pos_rotateLeft _ _ hp]

end Sys2Proof.Machine
end

section
/-! PROOFS. LDKEY's acceptance and the KS steps at the edges that follow (42_key_schedule.md rules R182, R185 and R187). -/

namespace Sys2Proof.Machine

/-- In IDLE, LDKEY is its acceptance action (rules R101, R182). -/
theorem exec_ldkey_of_idle (K : Block) {s : State} (hs : s.st = .idle) : exec (.ldkey K) s = .next (acceptKey K s) := by
  rw [exec_eq, whenReady_idle _ hs, acceptInstr]

/-- Settles O16: the registers listed are the ones the acceptance action writes. -/
theorem ldkeyAcceptanceWrites : Obligations.LdkeyAcceptanceWrites := fun K _ hs => exec_ldkey_of_idle K hs

/-- A command is accepted in IDLE alone (rules R43, R101). -/
theorem accepts_of_ne_idle (p : Pins) {s : State} (hs : s.st ≠ .idle) : accepts p s = false := by
  rw [accepts, cmdReady_of_ne_idle hs, Bool.and_false]

/-- The last KS step makes the cipher instance valid and keeps `rnd` (rule R185). -/
theorem ksStep_of_last {s : State} (h : s.rnd = 15) :
    ksStep s = { s with c := (ksStep s).c, d := (ksStep s).d, sk := (ksStep s).sk, keyValid := true, st := .idle } := by
  simp only [ksStep, if_pos h]

/-- Every other KS step goes on to the next round (rule R185). -/
theorem ksStep_of_not_last {s : State} (h : s.rnd ≠ 15) :
    ksStep s = { s with c := (ksStep s).c, d := (ksStep s).d, sk := (ksStep s).sk, rnd := s.rnd + 1 } := by
  simp only [ksStep, if_neg h]

/-- Settles O17: the edge is the KS step whatever the host presents, and the step is the last one or not. -/
theorem keyScheduleStepWrites : Obligations.KeyScheduleStepWrites := by
  intro p s hp hs
  refine ⟨accepts_of_ne_idle p (by simp [hs]), fun hlast => ?_, fun hlast => ?_⟩
  · exact (edge_of_ks hp hs).trans (congrArg _ (ksStep_of_last hlast))
  · exact (edge_of_ks hp hs).trans (congrArg _ (ksStep_of_not_last hlast))

/-- Settles O15: after the acceptance and `k + 1` KS steps, `C` and `D` are `keyHalves K (k + 1)`, which is one rotation of
the PC1 halves. -/
theorem rotationIsCumulative : Obligations.RotationIsCumulative := by
  intro K s k ps hs hps hlen
  have hk : k.toNat < 16 := k.isLt
  obtain ⟨u, hrun, hu⟩ := ksAfter_edges ps hps (ksAfter_accept K s) (by omega)
  have hcd : (u.c, u.d) = keyHalves K (k.toNat + 1) := by rw [hu.halves, Nat.zero_add, hlen]
  rw [keyHalves_eq_rotateLeft K hk] at hcd
  exact ⟨_, u, exec_ldkey_of_idle K hs, hrun, congrArg Prod.fst hcd, congrArg Prod.snd hcd⟩

end Sys2Proof.Machine
end

section
/-! PROOFS. The round function position by position: the groups it reads, the S-box entries and the nibbles it joins
(43_round_function.md rules R211 to R216). -/

namespace Sys2Proof.Machine

/-- Position `i` of an extracted field is the position as far from the field's first position in the whole value. -/
theorem pos_extractLsb' {n : Nat} (v : BitVec n) {s m i : Nat} (hs : s + m ≤ n) (hi : i < m) :
    pos (v.extractLsb' s m) i = pos v (n - s - m + i) := by
  have hbit : s + (m - 1 - i) = n - 1 - (n - s - m + i) := by omega
  rw [pos_eq_getLsbD _ hi, pos_eq_getLsbD v (by omega), BitVec.getLsbD_extractLsb', hbit,
    decide_eq_true (by omega), Bool.true_and]

/-- The first positions of a concatenation are those of its high part. -/
theorem pos_append_of_lt {n m : Nat} (v : BitVec n) (w : BitVec m) {p : Nat} (h : p < n) :
    pos (v ++ w) p = pos v p :=
  BitVec.getMsbD_append.trans (if_neg (not_le.mpr h))

/-- The positions of a concatenation after its high part are those of its low part. -/
theorem pos_append_add {n m : Nat} (v : BitVec n) (w : BitVec m) (i : Nat) : pos (v ++ w) (n + i) = pos w i := by
  refine BitVec.getMsbD_append.trans ?_
  rw [if_pos (Nat.le_add_right n i), Nat.add_sub_cancel_left]

/-- Group `j` stands at positions `6j` to `6j+5` (rule R215). -/
theorem pos_sboxGroup (x : BitVec 48) (j : Fin 8) {i : Nat} (hi : i < 6) :
    pos (sboxGroup x j) i = pos x (6 * j.val + i) := by
  have hplace : 48 - (42 - 6 * j.val) - 6 + i = 6 * j.val + i := by omega
  rw [sboxGroup, pos_extractLsb' x (by omega) hi, hplace]

/-- The nibble of group `j` stands at positions `4j` to `4j+3` (rule R215): the nibbles after it are skipped by
`pos_append_of_lt`, the ones before it by `pos_append_add`. -/
theorem pos_substitute (x : BitVec 48) (j : Fin 8) {i : Nat} (hi : i < 4) :
    pos (substitute x) (4 * j.val + i) = pos (sbox j (sboxGroup x j)) i := by
  unfold substitute
  match j with
  | 0 =>
    simp (disch := omega) only [pos_append_of_lt]
    rw [Fin.val_zero, Nat.mul_zero, Nat.zero_add]
  | 1 | 2 | 3 | 4 | 5 | 6 =>
    simp (disch := omega) only [pos_append_of_lt]
    exact pos_append_add _ _ i
  | 7 => exact pos_append_add _ _ i

/-- Settles O25: the composition is the definition of `F`; the places are those of the nibbles and of the groups. -/
theorem roundFunctionJoinsNibbles : Obligations.RoundFunctionJoinsNibbles := fun _ _ =>
  ⟨rfl, fun x j => ⟨fun _ hi => pos_substitute x j hi, fun _ hi => pos_sboxGroup x j hi⟩⟩

/-- A 4-bit value as a number, position 0 its high bit. -/
theorem toNat_eq_sum_pos : ∀ v : BitVec 4,
    v.toNat = 8 * (pos v 0).toNat + 4 * (pos v 1).toNat + 2 * (pos v 2).toNat + (pos v 3).toNat := by
  decide

/-- The row is positions 0 and 5, high to low (rule R214). -/
theorem toNat_sboxRow (b : BitVec 6) : (sboxRow b).toNat = 2 * (pos b 0).toNat + (pos b 5).toNat := by
  unfold sboxRow
  cases pos b 0 <;> cases pos b 5 <;> rfl

/-- The column is positions 1 to 4, high to low (rule R214). -/
theorem toNat_sboxCol (b : BitVec 6) :
    (sboxCol b).toNat = 8 * (pos b 1).toNat + 4 * (pos b 2).toNat + 2 * (pos b 3).toNat + (pos b 4).toNat := by
  have hpos : ∀ i < 4, pos (sboxCol b) i = pos b (1 + i) := fun i hi => pos_extractLsb' b (by decide) hi
  rw [toNat_eq_sum_pos, hpos 0 (by decide), hpos 1 (by decide), hpos 2 (by decide), hpos 3 (by decide)]

/-- Every entry of a substitution table fits a nibble (rule R147). -/
theorem SboxTable.entry_le (T : SboxTable) {e : Nat} (h : e ∈ T.entries) : e ≤ 15 := by
  have hok := T.ok
  simp only [sboxTableOk, Bool.and_eq_true, List.all_eq_true, decide_eq_true_eq] at hok
  exact hok.2 e h

/-- An S-box lookup is the table's entry at its row and column, unchanged by the cut to four bits (rule R214). -/
theorem getElem?_sboxTable (j : Fin 8) (b : BitVec 6) :
    (sboxTable j).entries[16 * (sboxRow b).toNat + (sboxCol b).toNat]? = some (sbox j b).toNat := by
  have hlt : 16 * (sboxRow b).toNat + (sboxCol b).toNat < (sboxTable j).entries.length := by
    rw [(sboxTable j).length_entries]
    omega
  have hle := (sboxTable j).entry_le (List.getElem_mem hlt)
  simp only [sbox, Nat.mul_comm _ 16, BitVec.toNat_ofNat]
  rw [List.getElem?_eq_getElem hlt, Nat.mod_eq_of_lt (by omega)]

/-- Settles O24: the entry a lookup reads, with its row and column written out position by position. -/
theorem sboxReadsRowAndColumn : Obligations.SboxReadsRowAndColumn := by
  intro j b
  simpa only [toNat_sboxRow, toNat_sboxCol, ← Nat.add_assoc] using getElem?_sboxTable j b

end Sys2Proof.Machine
end

section
/-! PROOFS. The acceptance of ENC and DEC, the RUN step and the rows of the FSM table (44_feistel_driver.md rules R240, R244
and R245). -/

namespace Sys2Proof.Machine

/-- In IDLE a command's meaning is its acceptance action (rule R101). -/
theorem exec_of_idle (i : Instr) {s : State} (hs : s.st = .idle) : exec i s = .next (acceptInstr i s) := by
  rw [exec_eq, whenReady_idle _ hs]

/-- ENC and DEC share one acceptance action, `dir` 1 for DEC (rule R244). -/
theorem acceptInstr_cipher (dir : Bool) (b : Block) :
    acceptInstr (if dir then .dec b else .enc b) = acceptCipher dir b := by
  cases dir with
  | false => rfl
  | true => rfl

/-- In IDLE with a valid key, ENC and DEC are their acceptance action (rule R244). -/
theorem exec_cipher_of_keyed (dir : Bool) (b : Block) {s : State} (hs : s.st = .idle) (hkey : s.keyValid = true) :
    exec (if dir then .dec b else .enc b) s = .next (acceptBlock dir b s) := by
  rw [exec_of_idle _ hs, acceptInstr_cipher, acceptCipher_keyed dir b hkey]

/-- Settles O26: the registers listed are the ones the acceptance action writes. -/
theorem blockAcceptanceWrites : Obligations.BlockAcceptanceWrites := fun b _ hs hkey =>
  ⟨exec_cipher_of_keyed false b hs hkey, exec_cipher_of_keyed true b hs hkey⟩

/-- The last RUN step delivers the output block of the new halves and keeps `rnd` (rules R245, R246). -/
theorem runStep_of_last {s : State} (h : s.rnd = 15) :
    runStep s =
      { s with
        l := s.r, r := (runStep s).r, dout := outputBlock (s.r, (runStep s).r), doutValid := true, st := .idle } := by
  simp only [runStep, if_pos h, feistelRound]

/-- Every other RUN step goes on to the next round (rule R245). -/
theorem runStep_of_not_last {s : State} (h : s.rnd ≠ 15) :
    runStep s = { s with l := s.r, r := (runStep s).r, rnd := s.rnd + 1 } := by
  simp only [runStep, if_neg h, feistelRound]

/-- Settles O27: the edge is the RUN step, and the step is the last one or not. -/
theorem runStepWrites : Obligations.RunStepWrites := by
  intro p s hp hs
  refine ⟨fun hlast => ?_, fun hlast => ?_⟩
  · exact (edge_of_run hp hs).trans (congrArg _ (runStep_of_last hlast))
  · exact (edge_of_run hp hs).trans (congrArg _ (runStep_of_not_last hlast))

/-- `cmd_ready` is 1 in IDLE alone (rule R43). -/
theorem cmdReady_iff_idle (s : State) : s.cmdReady = true ↔ s.st = .idle := by
  rw [State.cmdReady, beq_iff_eq]

/-- ENC and DEC at an edge that accepts them: the acceptance action under a valid key, NO_KEY without (rules R240,
R284). -/
theorem edge_of_cipher {p : Pins} {s : State} {dir : Bool} {b : Block} (hp : p.rst = false) (hv : p.cmdValid = true)
    (hs : s.st = .idle) (hd : decode p.cmdWord p.cmdData = .ok (if dir then .dec b else .enc b)) :
    edge p s = .next (acceptCipher dir b s) := by
  rw [edge_of_command hp hv hs hd, acceptInstr_cipher]

/-- Settles O50: each row is the lemma about that row's edge. -/
theorem fsmTableRows : Obligations.FsmTableRows := by
  intro p s
  refine ⟨cmdReady_iff_idle s, edge_of_reset s, fun hp => ⟨?_, ?_, ?_, ?_, ?_, ?_, ?_⟩⟩
  · exact fun hs hv => edge_of_no_command hp hv hs
  · exact fun hs hv _ hd => edge_of_illegal hp hv hs hd
  · exact fun hs hv _ hd => edge_of_command hp hv hs hd
  · exact fun hs hv _ _ hd => edge_of_cipher hp hv hs hd
  · exact edge_of_ks hp
  · exact edge_of_run hp
  · exact edge_of_fault hp

end Sys2Proof.Machine
end

section
/-! PROOFS. Fault entry, what STATUS shows in FAULT, and the reset as the only way out (60_exceptions.md rules R281, R283, R284
and R291). -/

namespace Sys2Proof.Machine

/-- STATUS bit 0 is BUSY (rule R42). -/
theorem status_getLsbD_zero (s : State) : s.status.getLsbD 0 = s.busy := by
  simp only [State.status, BitVec.getLsbD_append, BitVec.getLsbD_ofBool]
  rfl

/-- STATUS bit 3 is FAULT (rule R42). -/
theorem status_getLsbD_three (s : State) : s.status.getLsbD 3 = s.faulted := by
  simp only [State.status, BitVec.getLsbD_append, BitVec.getLsbD_ofBool]
  rfl

/-- STATUS bits 5:4 are ERR (rule R42): the reserved bits stand above them, the four flags below. -/
theorem status_extractLsb'_err (s : State) : s.status.extractLsb' 4 2 = s.err := by
  unfold State.status
  simp (disch := decide) only [BitVec.extractLsb'_append_eq_of_le, BitVec.extractLsb'_append_eq_of_add_le]
  exact BitVec.extractLsb'_eq_self

/-- In FAULT the engine is not ready, and STATUS shows FAULT, no BUSY and the code (rules R42, R43). -/
theorem cmdReady_status_of_fault {s : State} (hs : s.st = .fault) :
    s.cmdReady = false ∧ s.status.getLsbD 3 = true ∧ s.status.getLsbD 0 = false ∧ s.status.extractLsb' 4 2 = s.err := by
  refine ⟨cmdReady_of_ne_idle (by simp [hs]), ?_, ?_, status_extractLsb'_err s⟩
  · rw [status_getLsbD_three, State.faulted, hs]
    rfl
  · rw [status_getLsbD_zero, State.busy, hs]
    rfl

/-- A word outside the table is illegal, whatever its operand (rules R104, R105). -/
theorem exists_decode_eq_error {w : CmdWord} (hw : w ∉ [0x01#8, 0x02#8, 0x03#8]) (d : Block) :
    ∃ e, decode w d = .error e := by
  obtain ⟨hldkey, henc, hdec⟩ : w ≠ 0x01#8 ∧ w ≠ 0x02#8 ∧ w ≠ 0x03#8 := by simpa using hw
  obtain ⟨-, -, -, hother⟩ := decodeClassifiesEveryWord w d
  exact hother hldkey henc hdec

/-- In IDLE without a valid key, ENC and DEC are the NO_KEY fault (rule R284). -/
theorem exec_cipher_of_unkeyed (dir : Bool) (b : Block) {s : State} (hs : s.st = .idle) (hkey : s.keyValid = false) :
    exec (if dir then .dec b else .enc b) s = .next (raiseFault .noKey s) := by
  rw [exec_of_idle _ hs, acceptInstr_cipher, acceptCipher_unkeyed dir b hkey]

/-- However long the host tries, edges without a reset leave a faulted engine as it is (rule R291). -/
theorem runEdges_of_fault {s : State} (hs : s.st = .fault) {ps : List Pins} (hps : NoReset ps) :
    runEdges ps s = .next s := by
  induction ps with
  | nil => exact runEdges_nil s
  | cons p ps ih =>
    obtain ⟨hp, hps⟩ := List.forall_mem_cons.mp hps
    rw [runEdges_cons, edgeNext_of (edge_of_fault hp hs), ih hps]

/-- Settles O36: the edges without a reset leave the state as it is, and the reset edge after them is `resetEdge` of it. -/
theorem faultLastsUntilReset : Obligations.FaultLastsUntilReset := by
  intro s ps p hs hps hp
  have hstay : runEdges ps s = .next s := runEdges_of_fault hs hps
  refine ⟨cmdReady_of_ne_idle (by simp [hs]), hstay, resetEdge s, ?_, rfl, rfl, rfl, rfl⟩
  rw [runEdges_append hstay, runEdges_cons, edgeNext_of (edge_of_reset s hp), runEdges_nil]

/-- Settles O35: both causes end in `raiseFault`, which writes `ERR` and `st` alone; what is shown after it holds of every
state in FAULT. -/
theorem violationsRaiseTheirFaults : Obligations.ViolationsRaiseTheirFaults := by
  refine ⟨fun p s hs hp hv hw => ?_, fun b s hs hkey => ?_, fun s code => cmdReady_status_of_fault rfl⟩
  · obtain ⟨e, he⟩ := exists_decode_eq_error hw p.cmdData
    exact edge_of_illegal hp hv hs he
  · exact ⟨exec_cipher_of_unkeyed false b hs hkey, exec_cipher_of_unkeyed true b hs hkey⟩

end Sys2Proof.Machine
end

section
/-! PROOFS. The reset edge (70_reset_and_hazards.md rule R320). -/

namespace Sys2Proof.Machine

/-- Under reset no command is accepted, whatever the host presents (rules R101, R320). -/
theorem accepts_of_reset {p : Pins} (s : State) (hp : p.rst = true) : accepts p s = false := by
  simp only [accepts, hp, Bool.not_true, Bool.false_and]

/-- Settles O39: the edge is `resetEdge`, whose definition lists the registers R320 names. -/
theorem resetEdgeWrites : Obligations.ResetEdgeWrites := fun _ s hp =>
  ⟨accepts_of_reset s hp, edge_of_reset s hp⟩

end Sys2Proof.Machine
end

section
/-! PROOFS. Decoding and encoding are inverse, and the words of the spec's table (30_encoding.md rules R102 to R105). -/

namespace Sys2Proof

/-- Settles O2: what decodes is an encoding, and an encoding decodes to its command. -/
theorem decodeInvertsEncode : Obligations.DecodeInvertsEncode := by
  intro w d i
  refine ⟨encode_eq_of_decode_eq_ok, fun h => ?_⟩
  have hdecode := decode_encode i
  rwa [h] at hdecode

/-- Settles O3: the decoder is run on the thirteen words. -/
theorem tableWordsDecodeAsListed : Obligations.TableWordsDecodeAsListed := by
  unfold Obligations.TableWordsDecodeAsListed
  decide

end Sys2Proof
end

section
/-! PROOFS. The engine's invariant: a reset establishes it and every row of the FSM table keeps it (10_state.md sections 1, 2
and 4; 44_feistel_driver.md rule R240). -/

namespace Sys2Proof.Machine

/-- A reset edge gives the invariant from any state: no key, no result, no fault, `rnd = 0` (rule R320). -/
theorem inv_resetEdge (s : State) : Inv (resetEdge s) where
  faultCode h := nomatch h
  noFaultCode _ := rfl
  noKeyMeansNoKey _ := rfl
  keyScheduling h := nomatch h
  running h := nomatch h
  keyed h := nomatch h
  noStaleResult _ _ := rfl
  restingRound _ := rfl

/-- A fault raised in IDLE keeps the invariant, NO_KEY without a key only (rules R283, R284). -/
theorem inv_raiseFault {code : FaultCode} {s : State} (h : Inv s) (hs : s.st = .idle)
    (hcode : code = .noKey → s.keyValid = false) : Inv (raiseFault code s) where
  faultCode _ := by cases code <;> simp
  noFaultCode hne := absurd rfl hne
  noKeyMeansNoKey hbits := by
    cases code with
    | illegalCmd => exact nomatch hbits
    | noKey => exact hcode rfl
  keyScheduling h := nomatch h
  running h := nomatch h
  keyed hkey := ⟨(h.keyed hkey).subkeys, (h.keyed hkey).halves⟩
  noStaleResult hkey _ := h.noStaleResult hkey (by simp [hs])
  restingRound _ := h.restingRound (.inl hs)

/-- LDKEY's acceptance starts a key schedule with no round done (rule R182). -/
theorem inv_acceptKey (K : Block) {s : State} (h : Inv s) (hs : s.st = .idle) : Inv (acceptKey K s) where
  faultCode h := nomatch h
  noFaultCode _ := h.noFaultCode (by simp [hs])
  noKeyMeansNoKey _ := rfl
  keyScheduling _ := ⟨rfl, rfl, fun _ hj => absurd hj (Nat.not_lt_zero _)⟩
  running h := nomatch h
  keyed h := nomatch h
  noStaleResult _ hne := absurd rfl hne
  restingRound h := by simp at h

/-- The acceptance of ENC or DEC under a key starts a run with no current result (rule R244). -/
theorem inv_acceptBlock (dir : Bool) (b : Block) {s : State} (h : Inv s) (hs : s.st = .idle) (hkey : s.keyValid = true) :
    Inv (acceptBlock dir b s) where
  faultCode h := nomatch h
  noFaultCode _ := h.noFaultCode (by simp [hs])
  noKeyMeansNoKey := h.noKeyMeansNoKey
  keyScheduling h := nomatch h
  running _ := ⟨hkey, rfl⟩
  keyed _ := ⟨(h.keyed hkey).subkeys, (h.keyed hkey).halves⟩
  noStaleResult _ _ := rfl
  restingRound h := by simp at h

/-- ENC or DEC keeps the invariant, with a key or without (rules R244, R284). -/
theorem inv_acceptCipher (dir : Bool) (b : Block) {s : State} (h : Inv s) (hs : s.st = .idle) : Inv (acceptCipher dir b s) := by
  cases hkey : s.keyValid with
  | true => rw [acceptCipher_keyed dir b hkey]; exact inv_acceptBlock dir b h hs hkey
  | false => rw [acceptCipher_unkeyed dir b hkey]; exact inv_raiseFault h hs fun _ => hkey

/-- An accepted command keeps the invariant (rules R182, R244, R284). -/
theorem inv_acceptInstr (i : Instr) {s : State} (h : Inv s) (hs : s.st = .idle) : Inv (acceptInstr i s) := by
  cases i with
  | ldkey K => exact inv_acceptKey K h hs
  | enc b => exact inv_acceptCipher false b h hs
  | dec b => exact inv_acceptCipher true b h hs

/-- A KS step takes the halves of the key one round on (rule R187). -/
theorem ksStep_halves {s : State} (h : ScheduleInProgress s) :
    ((ksStep s).c, (ksStep s).d) = keyHalves s.key (s.rnd.toNat + 1) := by
  simp [keyHalves, ← h.halves]

/-- A KS step writes the subkey of its round (rule R188). -/
theorem ksStep_subkeys {s : State} (h : ScheduleInProgress s) (j : Round) (hj : j.toNat < s.rnd.toNat + 1) :
    readSubkey (ksStep s).sk j = readSubkey (keySchedule s.key) j := by
  rw [ksStep_sk, readSubkey_writeSubkey]
  split_ifs with hround
  · rw [hround, readSubkey_keySchedule, ← ksStep_halves h]
    rfl
  · have hne : j.toNat ≠ s.rnd.toNat := fun e => hround (BitVec.eq_of_toNat_eq e)
    exact h.subkeys j (by omega)

/-- The last KS step completes the cipher's subkeys: sixteen rounds bring the halves back (rules R49, R186). -/
theorem holdsInstance_ksStep_last {s : State} (h : ScheduleInProgress s) (hlast : s.rnd = 15) : HoldsInstance (ksStep s) where
  subkeys := subkeyFile_ext fun j => ksStep_subkeys h j (by rw [hlast]; exact j.isLt)
  halves := by
    have hcd := ksStep_halves h
    rw [hlast] at hcd
    have hback := hcd.trans (keyHalves_sixteen s.key)
    rw [show (ksStep s).c = _ from congrArg Prod.fst hback, show (ksStep s).d = _ from congrArg Prod.snd hback]
    exact splitKey_append _

/-- Every other KS step leaves a schedule with one more round done (rules R187, R188). -/
theorem scheduleInProgress_ksStep {s : State} (h : ScheduleInProgress s) (hlast : s.rnd ≠ 15) :
    ScheduleInProgress (ksStep s) := by
  have hrnd : (ksStep s).rnd.toNat = s.rnd.toNat + 1 := by rw [ksStep_rnd, if_neg hlast, round_succ hlast]
  refine ⟨?_, fun j hj => ksStep_subkeys h j (hrnd ▸ hj)⟩
  rw [hrnd]
  exact ksStep_halves h

/-- The KS step keeps the invariant: the last one completes the cipher, the others go on with the schedule (rule R185). -/
theorem inv_ksStep {s : State} (h : Inv s) (hs : s.st = .ks) : Inv (ksStep s) := by
  obtain ⟨hkey, hsched⟩ := h.keyScheduling hs
  have herr : s.err = 0b00#2 := h.noFaultCode (by simp [hs])
  have hcode : s.err ≠ FaultCode.noKey.bits := by rw [herr]; decide
  by_cases hlast : s.rnd = 15
  · have hst : (ksStep s).st = .idle := if_pos hlast
    have hvalid : (ksStep s).keyValid = true := if_pos hlast
    exact {
      faultCode := fun hf => nomatch hst.symm.trans hf
      noFaultCode := fun _ => herr
      noKeyMeansNoKey := fun hbits => absurd hbits hcode
      keyScheduling := fun hks => nomatch hst.symm.trans hks
      running := fun hrun => nomatch hst.symm.trans hrun
      keyed := fun _ => holdsInstance_ksStep_last hsched hlast
      noStaleResult := fun hno => nomatch hvalid.symm.trans hno
      restingRound := fun _ => by rw [hvalid, if_pos rfl, ksStep_rnd, if_pos hlast, hlast] }
  · have hst : (ksStep s).st = .ks := (if_neg hlast).trans hs
    have hvalid : (ksStep s).keyValid = false := (if_neg hlast).trans hkey
    exact {
      faultCode := fun hf => nomatch hst.symm.trans hf
      noFaultCode := fun _ => herr
      noKeyMeansNoKey := fun hbits => absurd hbits hcode
      keyScheduling := fun _ => ⟨hvalid, scheduleInProgress_ksStep hsched hlast⟩
      running := fun hrun => nomatch hst.symm.trans hrun
      keyed := fun hyes => nomatch hvalid.symm.trans hyes
      noStaleResult := fun _ hne => absurd hst hne
      restingRound := fun hrest => by simp only [hst, reduceCtorEq, or_self] at hrest }

/-- The RUN step keeps the invariant: the key stays, and the last step alone delivers a result and rests (rule R245). -/
theorem inv_runStep {s : State} (h : Inv s) (hs : s.st = .run) : Inv (runStep s) := by
  obtain ⟨hkey, hvalid⟩ := h.running hs
  have hst : (runStep s).st = .idle ∧ s.rnd = 15 ∨ (runStep s).st = .run ∧ s.rnd ≠ 15 := by
    by_cases hlast : s.rnd = 15
    · exact .inl ⟨if_pos hlast, hlast⟩
    · exact .inr ⟨(if_neg hlast).trans hs, hlast⟩
  exact {
    faultCode := fun hf => by simp only [hf, reduceCtorEq, false_and, or_self] at hst
    noFaultCode := fun _ => h.noFaultCode (by simp [hs])
    noKeyMeansNoKey := h.noKeyMeansNoKey
    keyScheduling := fun hks => by simp only [hks, reduceCtorEq, false_and, or_self] at hst
    running := fun hrun => by
      simp only [hrun, reduceCtorEq, false_and, false_or, true_and] at hst
      exact ⟨hkey, (if_neg hst).trans hvalid⟩
    keyed := fun _ => ⟨(h.keyed hkey).subkeys, (h.keyed hkey).halves⟩
    noStaleResult := fun hno => nomatch hkey.symm.trans hno
    restingRound := fun hrest => by
      obtain ⟨-, hlast⟩ | ⟨hrun, -⟩ := hst
      · rw [runStep_keyValid, hkey, if_pos rfl, runStep_rnd, if_pos hlast, hlast]
      · simp only [hrun, reduceCtorEq, or_self] at hrest }

/-- Every edge keeps the invariant, whatever the host drives: one case per row of the FSM table (rule R240). -/
theorem inv_edgeNext (p : Pins) {s : State} (h : Inv s) : Inv (edgeNext p s) := by
  rcases edge_cases p s with ⟨-, he⟩ | ⟨-, -, -, he⟩ | ⟨-, -, hs, -, he⟩ | ⟨-, -, hs, i, -, he⟩ | ⟨-, hs, he⟩ |
    ⟨-, hs, he⟩ | ⟨-, -, he⟩ <;> rw [edgeNext_of he]
  · exact inv_resetEdge s
  · exact h
  · exact inv_raiseFault h hs (by simp)
  · exact inv_acceptInstr i h hs
  · exact inv_ksStep h hs
  · exact inv_runStep h hs
  · exact h

/-- The invariant speaks of the engine's registers alone. -/
theorem inv_withHost {s : State} (h : Inv s) (sc : List HostAction) (rd : List Outputs) : Inv (withHost s sc rd) where
  faultCode := h.faultCode
  noFaultCode := h.noFaultCode
  noKeyMeansNoKey := h.noKeyMeansNoKey
  keyScheduling hs := ⟨(h.keyScheduling hs).1, (h.keyScheduling hs).2.halves, (h.keyScheduling hs).2.subkeys⟩
  running := h.running
  keyed hkey := ⟨(h.keyed hkey).subkeys, (h.keyed hkey).halves⟩
  noStaleResult := h.noStaleResult
  restingRound := h.restingRound

/-- Settles O45: a step is an edge and a change of the host's side, so both cases are `inv_edgeNext`. -/
theorem stepKeepsInvariant : Obligations.StepKeepsInvariant := by
  rintro s t h (hstep | ⟨p, hedge⟩)
  · obtain ⟨p, sc, rd, hs⟩ := step_eq_edge s
    cases hstep.symm.trans hs
    exact inv_withHost (inv_edgeNext p h) sc rd
  · rw [← edgeNext_of hedge]
    exact inv_edgeNext p h

/-- The model's reset state is left as it is by a reset edge. -/
theorem resetEdge_reset : resetEdge State.reset = State.reset := rfl

/-- Settles O44: a reset edge gives the invariant from any state, the model's reset state being its own image. -/
theorem resetMeetsInvariant : Obligations.ResetMeetsInvariant := by
  refine ⟨resetEdge_reset ▸ inv_resetEdge State.reset, fun p s t hp hedge => ?_⟩
  cases hedge.symm.trans (edge_of_reset s hp)
  exact inv_resetEdge s

end Sys2Proof.Machine
end

section
/-! PROOFS. Values and their bytes: the two readings are inverse, bit addressing on a value's bytes, and the operand's spellings
(20_memory.md rule R72; 30_encoding.md rules R106, R107; 41_bit_permutation.md rule R162). -/

namespace Sys2Proof.Machine

/-- `N` bytes are the bytes of the value they hold: bit `i` of byte `j` is bit `8(N-1-j) + i` of the value (rule R72). -/
theorem bytesOf_wordOfBytes {N : Nat} {bs : List Byte} (hlen : bs.length = N) : bytesOf (wordOfBytes (8 * N) bs) = bs := by
  refine List.ext_getElem (by rw [bytesOf_length, hlen]) fun j hj hj' => BitVec.eq_of_getLsbD_eq fun i hi => ?_
  have hplace : (8 * N - 8 - 8 * j + i) / 8 = N - 1 - j := by omega
  have hbit : (8 * N - 8 - 8 * j + i) % 8 = i := by omega
  have hbyte : bs.length - 1 - (N - 1 - j) = j := by omega
  rw [getElem_bytesOf, BitVec.getLsbD_extractLsb', decide_eq_true hi, Bool.true_and,
    wordOfBytes_bit bs (by omega) (by omega)]
  simp only [hplace, hbit, hbyte]

/-- On the bytes of a value `getBit` reads the value's position (rule R162). -/
theorem getBit_bytesOf {N : Nat} (v : BitVec (8 * N)) {p : Nat} (hp : p < 8 * N) : getBit (bytesOf v) p = .ok (pos v p) := by
  have hbyte : p / 8 < (bytesOf v).length := by rw [bytesOf_length]; omega
  have hplace : 8 * N - (8 * N - 8 - 8 * (p / 8)) - 8 + p % 8 = p := by omega
  rw [getBit_of_getElem? (List.getElem?_eq_getElem hbyte), getElem_bytesOf,
    pos_extractLsb' v (by omega) (Nat.mod_lt p (by decide)), hplace]

/-- Settles O5: the bytes `setBit` answers are those of the value they hold, whose positions `getBit` reads. -/
theorem bitAddressingHasAWordForm : Obligations.BitAddressingHasAWordForm := by
  intro N v p x hp
  obtain ⟨data, hset, hlen, hbits⟩ := setBit_of_lt (data := bytesOf v) x (by rwa [bytesOf_length])
  rw [bytesOf_length] at hlen hbits
  have hdata : bytesOf (wordOfBytes (8 * N) data) = data := bytesOf_wordOfBytes hlen
  have hpos : ∀ q, q < 8 * N → pos (wordOfBytes (8 * N) data) q = if q = p then x else pos v q := by
    intro q hq
    have hget := hbits q hq
    rw [← hdata, getBit_bytesOf _ hq, getBit_bytesOf _ hq] at hget
    split_ifs at hget ⊢ with hqp <;> exact Except.ok.inj hget
  refine ⟨getBit_bytesOf v hp, wordOfBytes (8 * N) data, by rw [hset, hdata], ?_, fun q hqp => ?_⟩
  · rw [hpos p hp, if_pos rfl]
  · by_cases hq : q < 8 * N
    · rw [hpos q hq, if_neg hqp]
    · rw [pos_of_le _ (not_lt.mp hq), pos_of_le _ (not_lt.mp hq)]

/-- Eight bytes are the bytes of the block they hold (rule R107). -/
theorem bytesOf_block {bs : List Byte} (hlen : bs.length = 8) : bytesOf (wordOfBytes 64 bs) = bs :=
  bytesOf_wordOfBytes (N := 8) hlen

/-- Settles O57: the bracketed spelling and the adapter hold the bytes given, and a value is read back from its bytes. -/
theorem operandSpellingsAgree : Obligations.OperandSpellingsAgree := by
  refine ⟨fun bs => bytesOf_block bs.length_toList, fun _ => rfl, fun v bs hbytes => ?_, fun bs => ⟨fun hlen => ?_, fun hlen => ?_⟩⟩
  · have hback : wordOfBytes 64 (bytesOf v) = v := wordOfBytes_bytesOf (N := 8) v
    exact hback.symm.trans (congrArg (wordOfBytes 64) hbytes)
  · exact ⟨wordOfBytes 64 bs, by rw [operandOfBytes, operandBytesOk, hlen]; rfl, bytesOf_block hlen⟩
  · rw [operandOfBytes, operandBytesOk, beq_eq_false_iff_ne.mpr hlen, if_neg Bool.false_ne_true]

end Sys2Proof.Machine
end

section
/-! PROOFS. The checked form and the byte form of `Permute` (41_bit_permutation.md rules R163, R164 and R167). -/

namespace Sys2Proof.Machine

/-- A table entry outside `[1, n]` is the BitRange fault of the checked form (rule R167). -/
theorem permuteChecked_of_out_of_range {n : Nat} (v : BitVec n) {entries : List Nat} (h : ∃ t ∈ entries, t < 1 ∨ n < t) :
    ∃ q, permuteChecked entries v = .error (.bitRange q (n / 8)) := by
  obtain ⟨t, ht, hout⟩ := h
  have hsome : (entries.find? fun t => t < 1 || n < t).isSome = true := by
    rw [List.find?_isSome]
    exact ⟨t, ht, by simpa using hout⟩
  obtain ⟨u, hu⟩ := Option.isSome_iff_exists.mp hsome
  exact ⟨u - 1, by rw [permuteChecked, hu]⟩

/-- A table in range never reaches the fault, and the checked form's value is `Permute`'s (rules R163, R167). -/
theorem permuteChecked_of_table {n m : Nat} (T : Table n m) (v : BitVec n) :
    ∃ w, permuteChecked T.entries v = .ok w ∧ w.toNat = (permute T v).toNat := by
  have hnone : (T.entries.find? fun t => t < 1 || n < t) = none := by
    rw [List.find?_eq_none]
    intro t ht
    have hrange := T.entry_range ht
    simp only [Bool.or_eq_true, decide_eq_true_eq]
    omega
  refine ⟨_, by rw [permuteChecked, hnone], ?_⟩
  rw [permute, BitVec.toNat_cast, BitVec.toNat_cast]

/-- One step of the byte form in range copies one bit: the output keeps its length and changes at position `i` alone. -/
theorem permuteByteStep_of_in_range {input out : List Byte} {i t : Nat} (ht : 1 ≤ t) (htn : t ≤ 8 * input.length)
    (hi : i < 8 * out.length) :
    ∃ out', permuteByteStep input out i t = .ok out' ∧ out'.length = out.length ∧
      getBit out' i = getBit input (t - 1) ∧ ∀ q, q < 8 * out.length → q ≠ i → getBit out' q = getBit out q := by
  have hget := getBit_of_lt (data := input) (p := t - 1) (by omega)
  obtain ⟨out', hset, hlen, hbits⟩ := setBit_of_lt _ hi
  refine ⟨out', ?_, hlen, ?_, fun q hq hqi => by rw [hbits q hq, if_neg hqi]⟩
  · rw [permuteByteStep, if_neg (by omega), hget]
    exact hset
  · rw [hbits i hi, if_pos rfl, hget]

/-- One step of the byte form on an entry out of range is the BitRange fault (rule R167). -/
theorem permuteByteStep_of_out_of_range {input : List Byte} (out : List Byte) (i : Nat) {t : Nat}
    (h : t < 1 ∨ 8 * input.length < t) : ∃ q, permuteByteStep input out i t = .error (.bitRange q input.length) := by
  by_cases hzero : t = 0
  · exact ⟨-1, by rw [permuteByteStep, if_pos hzero]⟩
  · exact ⟨(t - 1 : Nat), by rw [permuteByteStep, if_neg hzero, getBit_of_le (by omega)]⟩

/-- The loop of the byte form reaches the first entry out of range, wherever it stands, and faults there. -/
theorem permuteByteLoop_of_out_of_range {input : List Byte} {ts : List Nat} (h : ∃ t ∈ ts, t < 1 ∨ 8 * input.length < t)
    {i : Nat} {out : List Byte} (hroom : i + ts.length ≤ 8 * out.length) :
    ∃ q, permuteByteLoop input ts i out = .error (.bitRange q input.length) := by
  induction ts generalizing i out with
  | nil => simp at h
  | cons t ts ih =>
    rw [List.length_cons] at hroom
    by_cases hout : t < 1 ∨ 8 * input.length < t
    · obtain ⟨q, hq⟩ := permuteByteStep_of_out_of_range out i hout
      exact ⟨q, by rw [permuteByteLoop, hq]⟩
    · obtain ⟨out', hstep, hlen, -⟩ := permuteByteStep_of_in_range (input := input) (out := out) (i := i) (t := t)
        (by omega) (by omega) (by omega)
      obtain ⟨q, hq⟩ := ih (((List.exists_mem_cons_iff _ _ _).mp h).resolve_left hout) (i := i + 1) (out := out') (by omega)
      exact ⟨q, by rw [permuteByteLoop, hstep]; exact hq⟩

/-- The loop of the byte form in range: every entry's position is copied, and the positions before `i` stay. -/
theorem permuteByteLoop_of_in_range {input : List Byte} {ts : List Nat} (h : ∀ t ∈ ts, 1 ≤ t ∧ t ≤ 8 * input.length)
    {i : Nat} {out : List Byte} (hroom : i + ts.length ≤ 8 * out.length) :
    ∃ out', permuteByteLoop input ts i out = .ok out' ∧ out'.length = out.length ∧
      (∀ (j : Nat) (hj : j < ts.length), getBit out' (i + j) = getBit input (ts[j] - 1)) ∧
      ∀ q, q < i → getBit out' q = getBit out q := by
  induction ts generalizing i out with
  | nil => exact ⟨out, rfl, rfl, fun j hj => absurd hj (Nat.not_lt_zero j), fun _ _ => rfl⟩
  | cons t ts ih =>
    rw [List.length_cons] at hroom
    obtain ⟨⟨ht, htn⟩, hts⟩ := List.forall_mem_cons.mp h
    obtain ⟨mid, hstep, hmid, hcopy, hkeep⟩ := permuteByteStep_of_in_range (out := out) (i := i) ht htn (by omega)
    obtain ⟨out', hloop, hlen, hbits, hbefore⟩ := ih hts (i := i + 1) (out := mid) (by omega)
    refine ⟨out', by rw [permuteByteLoop, hstep]; exact hloop, hlen.trans hmid, fun j hj => ?_, fun q hq => ?_⟩
    · cases j with
      | zero => exact (hbefore i (by omega)).trans hcopy
      | succ j =>
        rw [List.getElem_cons_succ, ← hbits j (Nat.lt_of_succ_lt_succ hj), Nat.add_assoc i 1 j, Nat.add_comm 1 j]
    · rw [hbefore q (by omega), hkeep q (by omega) (by omega)]

/-- Settles O8: past the sequence reading and setting fault, both forms of `Permute` fault on an entry out of range, and a table
in range answers `Permute`'s value. -/
theorem outOfRangeIsBitRange : Obligations.OutOfRangeIsBitRange := by
  refine ⟨fun data p x hp => ⟨getBit_of_le hp, setBit_of_le x hp⟩, fun n v T h => permuteChecked_of_out_of_range v h,
    fun data T h => permuteByteLoop_of_out_of_range h ?_, fun n m T v => permuteChecked_of_table T v⟩
  rw [List.length_replicate]
  omega

/-- Settles O10: the loop copies each entry's position, which is what `Permute` picks. -/
theorem byteFormIsWordForm : Obligations.ByteFormIsWordForm := by
  intro N M T v
  have hroom : (T.entries.length + 7) / 8 = M := by rw [T.length_entries]; omega
  have hrange : ∀ t ∈ T.entries, 1 ≤ t ∧ t ≤ 8 * (bytesOf v).length := by
    rw [bytesOf_length]
    exact fun t ht => T.entry_range ht
  obtain ⟨out, hloop, hlen, hbits, -⟩ := permuteByteLoop_of_in_range hrange (i := 0) (out := List.replicate M 0#8)
    (by rw [List.length_replicate, T.length_entries]; omega)
  rw [List.length_replicate] at hlen
  have hout : out = bytesOf (permute T v) := by
    refine bytes_ext (by rw [hlen, bytesOf_length]) fun q hq => ?_
    have hq' : q < T.entries.length := by rw [T.length_entries]; omega
    have hentry := (T.entry_range (List.getElem_mem hq')).2
    have hone := (T.entry_range (List.getElem_mem hq')).1
    rw [getBit_bytesOf _ (by omega), permutePicksEachEntry _ _ T v q hq', ← getBit_bytesOf v (by omega), ← hbits q hq',
      Nat.zero_add]
  rw [permuteBytes, hroom, hloop, hout]

end Sys2Proof.Machine
end

section
/-! PROOFS. Tables applied in sequence, IP and FP among them, and the tables' shapes (40_tables.md; 41_bit_permutation.md rule
R169). -/

namespace Sys2Proof.Machine

/-- The entries `T[U[i]-1]` have the shape of a table (rule R169). -/
theorem permTableOk_composeEntries {n m k : Nat} (T : Table n m) (U : Table m k) :
    permTableOk n k (composeEntries U.entries T.entries) = true := by
  simp only [permTableOk, composeEntries, Bool.and_eq_true, beq_iff_eq, List.length_map, List.all_map, List.all_eq_true,
    Function.comp_apply, decide_eq_true_eq]
  refine ⟨U.length_entries, fun u hu => ?_⟩
  have hu' := U.entry_range hu
  have hlt : u - 1 < T.entries.length := by rw [T.length_entries]; omega
  rw [List.getD_eq_getElem _ _ hlt]
  exact T.entry_range (List.getElem_mem hlt)

/-- The one table of two tables in sequence (rule R169). -/
def composeTable {n m k : Nat} (T : Table n m) (U : Table m k) : Table n k where
  entries := composeEntries U.entries T.entries
  ok := permTableOk_composeEntries T U

/-- Permuting by `T` and then by `U` is permuting by their composition (rule R169). -/
theorem permute_permute {n m k : Nat} (T : Table n m) (U : Table m k) (v : BitVec n) :
    permute U (permute T v) = permute (composeTable T U) v := by
  refine eq_of_pos fun i hi => ?_
  have hU : i < U.entries.length := by rwa [U.length_entries]
  have hentry := U.entry_range (List.getElem_mem hU)
  rw [permutePicksEachEntry _ _ U _ i hU, pos_permute_getD T v (by omega), pos_permute_getD (composeTable T U) v hi]
  simp only [composeTable, composeEntries]
  rw [List.getD_eq_getElem (List.map _ U.entries) 0 (by rwa [List.length_map]), List.getElem_map]

/-- Settles O11: the composed table is the one asked for. -/
theorem permutationsCompose : Obligations.PermutationsCompose := fun _ _ _ T U =>
  ⟨composeTable T U, rfl, permute_permute T U⟩

/-- A table that lists the input positions in order permutes nothing. -/
theorem permute_of_entries_in_order {n : Nat} (T : Table n n) (h : ∀ i < n, T.entries.getD i 0 = i + 1) (v : BitVec n) :
    permute T v = v :=
  eq_of_pos fun i hi => by rw [pos_permute_getD T v hi, h i hi, Nat.add_sub_cancel]

/-- FP undoes IP (rule R132). -/
theorem permute_fp_ip (x : Block) : permute fpTable (permute ipTable x) = x := by
  rw [permute_permute]
  exact permute_of_entries_in_order _ (by decide) x

/-- IP undoes FP (95_test_vectors.md section 2.1). -/
theorem permute_ip_fp (x : Block) : permute ipTable (permute fpTable x) = x := by
  rw [permute_permute]
  exact permute_of_entries_in_order _ (by decide) x

/-- Settles O12: each composed table lists the 64 positions in order. -/
theorem finalPermutationUndoesInitial : Obligations.FinalPermutationUndoesInitial := fun x =>
  ⟨permute_fp_ip x, permute_ip_fp x⟩

/-- Settles O13: the tables are constants, and each clause is a finite check of their entries. -/
theorem fixedTablesHaveTheirShapes : Obligations.FixedTablesHaveTheirShapes := by
  unfold Obligations.FixedTablesHaveTheirShapes
  decide

end Sys2Proof.Machine
end

section
/-! PROOFS. Which keys give which schedule: the parity positions, the reduced key and the constant halves (42_key_schedule.md
rules R181, R189 and R190). -/

namespace Sys2Proof.Machine

/-- Two values permute alike exactly when they agree on the positions the table reads (rule R163). -/
theorem permute_eq_iff {n m : Nat} (T : Table n m) (v w : BitVec n) :
    permute T v = permute T w ↔ ∀ t ∈ T.entries, pos v (t - 1) = pos w (t - 1) := by
  refine ⟨fun h t ht => ?_, permute_congr T⟩
  obtain ⟨i, hi, rfl⟩ := List.getElem_of_mem ht
  rw [← permutePicksEachEntry _ _ T v i hi, ← permutePicksEachEntry _ _ T w i hi, h]

/-- PC1 reads every position but the last of each byte (rule R133). -/
theorem mem_pc1Table_iff : ∀ p < 64, p + 1 ∈ pc1Table.entries ↔ p % 8 ≠ 7 := by
  decide

/-- Two keys have the same reduced key exactly when they agree outside the parity positions (rule R189). -/
theorem reducedKey_eq_iff (K K' : Block) :
    permute pc1Table K = permute pc1Table K' ↔ ∀ p, p < 64 → p % 8 ≠ 7 → pos K p = pos K' p := by
  rw [permute_eq_iff]
  refine ⟨fun h p hp hparity => h (p + 1) ((mem_pc1Table_iff p hp).mpr hparity), fun h t ht => ?_⟩
  obtain ⟨hone, hlast⟩ := pc1Table.entry_range ht
  have hmem : t - 1 + 1 ∈ pc1Table.entries := by rwa [Nat.sub_add_cancel hone]
  exact h (t - 1) (by omega) ((mem_pc1Table_iff _ (by omega)).mp hmem)

/-- Settles O20: keys with one reduced key have one schedule, and the results take the key through its schedule alone. -/
theorem parityBitsAreIgnored : Obligations.ParityBitsAreIgnored := by
  intro K K' h
  have hsched : keySchedule K = keySchedule K' := keySchedule_congr ((reducedKey_eq_iff K K').mpr h)
  exact ⟨hsched, fun b => ⟨congrArg (crypt · b false) hsched, congrArg (crypt · b true) hsched⟩⟩

/-- The position of the reduced key that position `j` of subkey `k` shows: PC2's entry, moved on by the rotations of the rounds
0 to `k`, each half in its own 28 positions (rules R181, R187). -/
def shownPosition (k : Round) (j : Nat) : Nat :=
  let q := pc2Table.entries.getD j 0 - 1
  let turn := (rotTable.entries.take (k.toNat + 1)).sum
  if q < 28 then (q + turn) % 28 else 28 + (q - 28 + turn) % 28

/-- The left half is the first 28 positions of the reduced key (rule R181). -/
theorem pos_splitKey_left (x : ReducedKey) {p : Nat} (hp : p < 28) : pos (splitKey x).1 p = pos x p := by
  rw [splitKey, pos_extractLsb' x (by decide) hp, Nat.zero_add]

/-- The right half is the last 28 positions of the reduced key (rule R181). -/
theorem pos_splitKey_right (x : ReducedKey) {p : Nat} (hp : p < 28) : pos (splitKey x).2 p = pos x (28 + p) :=
  pos_extractLsb' x (by decide) hp

/-- Every position of every subkey is a position of the reduced key (rules R181, R187). -/
theorem pos_readSubkey_keySchedule (K : Block) (k : Round) {j : Nat} (hj : j < 48) :
    pos (readSubkey (keySchedule K) k) j = pos (permute pc1Table K) (shownPosition k j) := by
  have hentry : pc2Table.entries.getD j 0 - 1 < 56 := by
    have hlt : j < pc2Table.entries.length := by rwa [pc2Table.length_entries]
    have hrange := pc2Table.entry_range (List.getElem_mem hlt)
    rw [List.getD_eq_getElem _ _ hlt]
    omega
  have hhalves := pos_keyHalves K (Nat.succ_le_of_lt k.isLt)
  rw [readSubkey_keySchedule, subkeyOf, pos_permute_getD pc2Table _ hj]
  simp only [shownPosition]
  split_ifs with hleft
  · rw [pos_append_of_lt _ _ hleft, (hhalves _ hleft).1, pos_splitKey_left _ (Nat.mod_lt _ (by decide))]
  · have hright : pc2Table.entries.getD j 0 - 1 - 28 < 28 := by omega
    have hsum : pc2Table.entries.getD j 0 - 1 = 28 + (pc2Table.entries.getD j 0 - 1 - 28) := by omega
    conv_lhs => rw [hsum, pos_append_add, (hhalves _ hright).2, pos_splitKey_right _ (Nat.mod_lt _ (by decide))]

/-- The first two subkeys show every position of the reduced key: what PC2 leaves out in round 0 it reads in round 1. -/
theorem shownPosition_of_first_two :
    ∀ p < 56, ∃ k ∈ [(0 : Round), 1], p ∈ (List.range 48).map (shownPosition k) := by
  decide

/-- The schedule determines the reduced key (rule R190). -/
theorem reducedKey_eq_of_keySchedule_eq {K K' : Block} (h : keySchedule K = keySchedule K') :
    permute pc1Table K = permute pc1Table K' := by
  refine eq_of_pos fun p hp => ?_
  obtain ⟨k, -, hshown⟩ := shownPosition_of_first_two p hp
  obtain ⟨j, hj, rfl⟩ := List.mem_map.mp hshown
  rw [List.mem_range] at hj
  rw [← pos_readSubkey_keySchedule K k hj, ← pos_readSubkey_keySchedule K' k hj, h]

/-- Settles O21: equal schedules, equal reduced keys and agreement outside the parity positions are the same. -/
theorem schedulesAgreeIffReducedKeysAgree : Obligations.SchedulesAgreeIffReducedKeysAgree := fun K K' =>
  Iff.trans ⟨reducedKey_eq_of_keySchedule_eq, keySchedule_congr⟩ (reducedKey_eq_iff K K')

/-- A constant half is the same under every rotation. -/
theorem rotateLeft_of_constant {x : KeyHalf} (h : x = 0 ∨ x = BitVec.allOnes 28) (s : Nat) : x.rotateLeft s = x := by
  refine eq_of_pos fun p hp => ?_
  have hmod : (p + s) % 28 < 28 := Nat.mod_lt _ (by decide)
  rw [pos_rotateLeft x s hp]
  rcases h with rfl | rfl
  · exact BitVec.getMsbD_zero.trans BitVec.getMsbD_zero.symm
  · rw [pos_eq_getLsbD _ hmod, pos_eq_getLsbD _ hp, BitVec.getLsbD_allOnes, BitVec.getLsbD_allOnes,
      decide_eq_true (by omega), decide_eq_true (by omega)]

/-- Settles O22: every subkey is selected from the starting halves, which no rotation changes. -/
theorem constantHalvesGiveEqualSubkeys : Obligations.ConstantHalvesGiveEqualSubkeys := by
  intro K hleft hright
  have hconst : ∀ i : Round, readSubkey (keySchedule K) i = subkeyOf (splitKey (permute pc1Table K)) := by
    intro i
    rw [readSubkey_keySchedule, keyHalves_eq_rotateLeft K (Nat.succ_le_of_lt i.isLt), rotateLeft_of_constant hleft,
      rotateLeft_of_constant hright]
  exact fun i j => (hconst i).trans (hconst j).symm

/-- Settles O23: E's entry at each of the 48 places names that position of the half. -/
theorem expansionSeesNeighbourBits : Obligations.ExpansionSeesNeighbourBits := by
  have hentry : ∀ j < 8, ∀ i < 6, eTable.entries.getD (6 * j + i) 0 - 1 = (4 * j + i + 31) % 32 := by decide
  intro r j i hj hi
  rw [pos_permute_getD eTable r (by omega), hentry j hj i hi]

end Sys2Proof.Machine
end

section
/-! PROOFS. The Feistel transform undone: the half states of the other direction run backwards (44_feistel_driver.md rules R248,
R249 and R256). -/

namespace Sys2Proof.Machine

/-- The starting halves of an output block are its half state swapped: IP undoes FP (rules R241, R246). -/
theorem startHalves_outputBlock (h : Half × Half) : startHalves (outputBlock h) = h.swap := by
  rw [startHalves, outputBlock, permute_ip_fp, splitBlock_of_append, Prod.swap]

/-- The output block of the swapped starting halves is the block: FP undoes IP (rules R241, R246). -/
theorem outputBlock_swap_startHalves (b : Block) : outputBlock (startHalves b).swap = b := by
  rw [outputBlock, Prod.fst_swap, Prod.snd_swap, startHalves, splitBlock_append, permute_fp_ip]

/-- The last rounds of one direction use the subkeys of the other's first rounds (rule R241). -/
theorem subkeyIndex_not (dir : Bool) {i : Nat} (hi : i < 16) :
    subkeyIndex (!dir) (BitVec.ofNat 4 i) = subkeyIndex dir (BitVec.ofNat 4 (15 - i)) := by
  interval_cases i <;> cases dir <;> rfl

/-- Running the other direction on a result passes through the half states backwards, swapped (rule R249). -/
theorem halfStates_crypt (ks : SubkeyFile) (dir : Bool) (b : Block) {i : Nat} (hi : i ≤ 16) :
    halfStates ks (!dir) (startHalves (crypt ks b dir)) i = (halfStates ks dir (startHalves b) (16 - i)).swap := by
  induction i with
  | zero => exact startHalves_outputBlock _
  | succ i ih =>
    have hprev : 16 - i = 15 - i + 1 := by omega
    rw [halfStates, ih (by omega), hprev, halfStates, subkeyIndex_not dir hi, feistelRound_undo, Nat.succ_sub_succ]

/-- Each direction undoes the other, for any subkeys (rule R248). -/
theorem crypt_crypt (ks : SubkeyFile) (dir : Bool) (b : Block) : crypt ks (crypt ks b dir) (!dir) = b := by
  rw [crypt, halfStates_crypt ks dir b (Nat.le_refl 16), Nat.sub_self, halfStates, outputBlock_swap_startHalves]

/-- Settles O30: both orders are `crypt_crypt` under the key's schedule. -/
theorem decryptUndoesEncrypt : Obligations.DecryptUndoesEncrypt := fun K b =>
  ⟨crypt_crypt (keySchedule K) false b, crypt_crypt (keySchedule K) true b⟩

/-- Settles O31: the half states of DEC on ENC's result. -/
theorem decHalfStatesReverseEnc : Obligations.DecHalfStatesReverseEnc := fun ks b _ hi => halfStates_crypt ks false b hi

/-- With equal subkeys the two directions run through the same half states (rule R256). -/
theorem halfStates_of_equal_subkeys {ks : SubkeyFile} (heq : ∀ i j : Round, readSubkey ks i = readSubkey ks j)
    (h : Half × Half) (i : Nat) : halfStates ks false h i = halfStates ks true h i := by
  induction i with
  | zero => rfl
  | succ i ih => rw [halfStates, halfStates, ih, heq (subkeyIndex false _) (subkeyIndex true _)]

/-- Settles O32: the two directions coincide, and one undoes the other. -/
theorem equalSubkeysMakeEncAnInvolution : Obligations.EqualSubkeysMakeEncAnInvolution := by
  intro ks heq b
  have hsame : ∀ x, crypt ks x false = crypt ks x true := fun x => by
    rw [crypt, crypt, halfStates_of_equal_subkeys heq]
  exact ⟨hsame b, (hsame _).trans (crypt_crypt ks false b)⟩

end Sys2Proof.Machine
end

section
/-! PROOFS. A whole command: its acceptance and the sixteen steps that follow, for LDKEY, ENC and DEC, and sequences of commands
(42_key_schedule.md section 2; 44_feistel_driver.md sections 4 and 5; 70_reset_and_hazards.md section 4). -/

namespace Sys2Proof.Machine

/-- Settles O18: after `k + 1` KS steps the subkeys up to `k` are those of the schedule. -/
theorem keyScheduleStepsComputeTheSchedule : Obligations.KeyScheduleStepsComputeTheSchedule := by
  intro K s k ps hs hps hlen
  have hk : k.toNat < 16 := k.isLt
  obtain ⟨u, hrun, hu⟩ := ksAfter_edges ps hps (ksAfter_accept K s) (by omega)
  refine ⟨_, u, exec_ldkey_of_idle K hs, hrun, fun j hj => ?_⟩
  have hjk : j.toNat ≤ k.toNat := BitVec.le_def.mp hj
  rw [hu.subkeys, if_pos (by omega)]

/-- Sixteen edges after LDKEY's acceptance end in the command-level state (rules R180, R254). -/
theorem runEdges_acceptKey (K : Block) (s : State) {ps : List Pins} (hps : CommandSteps ps) :
    runEdges ps (acceptKey K s) = .next (loadKey K s) := by
  obtain ⟨hlen, hreset⟩ := hps
  obtain ⟨u, hrun, hu⟩ := ksAfter_edges ps hreset (ksAfter_accept K s) (by rw [hlen]; decide)
  rw [hlen] at hu
  rw [hrun, ksAfter_sixteen hu]

/-- Sixteen edges after the acceptance of ENC or DEC end in the command-level state (rules R250, R251, R254). -/
theorem runEdges_acceptBlock (dir : Bool) (b : Block) (s : State) {ps : List Pins} (hps : CommandSteps ps) :
    runEdges ps (acceptBlock dir b s) = .next (cryptBlock dir b s) := by
  obtain ⟨hlen, hreset⟩ := hps
  obtain ⟨u, hrun, hu⟩ := runAfter_edges ps hreset (runAfter_accept dir b s) (by rw [hlen]; decide)
  rw [hlen] at hu
  rw [hrun, runAfter_sixteen hu]

/-- Settles O19: the end state is `loadKey`, whose halves join to the reduced key. -/
theorem ldkeyCompletes : Obligations.LdkeyCompletes := fun K s _ hs hps =>
  ⟨_, loadKey K s, exec_ldkey_of_idle K hs, runEdges_acceptKey K s hps, splitKey_append _, rfl, rfl, rfl⟩

/-- Settles O28: the end state is `cryptBlock` with `dir` 0. -/
theorem encCompletes : Obligations.EncCompletes := fun b s _ hs hkey hps =>
  ⟨_, cryptBlock false b s, exec_cipher_of_keyed false b hs hkey, runEdges_acceptBlock false b s hps, rfl,
    fun hsched => congrArg (crypt · b false) hsched, rfl, rfl⟩

/-- Settles O29: the end state is `cryptBlock` with `dir` 1. -/
theorem decCompletes : Obligations.DecCompletes := fun b s _ hs hkey hps =>
  ⟨_, cryptBlock true b s, exec_cipher_of_keyed true b hs hkey, runEdges_acceptBlock true b s hps, rfl,
    fun hsched => congrArg (crypt · b true) hsched, rfl, rfl⟩

/-- A command presented in IDLE is accepted at that edge (rule R101). -/
theorem edgeNext_presentPins (i : Instr) {s : State} (hs : s.st = .idle) : edgeNext (presentPins i) s = acceptInstr i s :=
  edgeNext_of (edge_of_command rfl rfl hs (decode_encode i))

/-- Sixteen edges after the acceptance of ENC or DEC, with a key or without (rules R254, R291). -/
theorem runEdges_acceptCipher (dir : Bool) (b : Block) (s : State) {ps : List Pins} (hps : CommandSteps ps) :
    runEdges ps (acceptCipher dir b s) = .next (if s.keyValid then cryptBlock dir b s else raiseFault .noKey s) := by
  cases hkey : s.keyValid with
  | true => rw [acceptCipher_keyed dir b hkey, runEdges_acceptBlock dir b s hps, if_pos rfl]
  | false =>
    rw [acceptCipher_unkeyed dir b hkey, runEdges_of_fault rfl hps.2, if_neg Bool.false_ne_true]

/-- A command presented in IDLE and its sixteen steps are its command-level effect (rule R254). -/
theorem runEdges_command (i : Instr) {s : State} (hs : s.st = .idle) {ps : List Pins} (hps : CommandSteps ps) :
    runEdges (presentPins i :: ps) s = .next (commandEffect i s) := by
  rw [runEdges_cons, edgeNext_presentPins i hs]
  cases i with
  | ldkey K => exact runEdges_acceptKey K s hps
  | enc b => exact runEdges_acceptCipher false b s hps
  | dec b => exact runEdges_acceptCipher true b s hps

/-- ENC or DEC with a key, presented in IDLE, and its sixteen steps (rules R250, R251). -/
theorem runEdges_cipher (dir : Bool) (b : Block) {s : State} (hs : s.st = .idle) (hkey : s.keyValid = true)
    {ps : List Pins} (hps : CommandSteps ps) :
    runEdges (presentPins (if dir then .dec b else .enc b) :: ps) s = .next (cryptBlock dir b s) := by
  rw [runEdges_cons, edgeNext_presentPins _ hs, acceptInstr_cipher, acceptCipher_keyed dir b hkey,
    runEdges_acceptBlock dir b s hps]

/-- A command-level step, with its edges: the command's effect in IDLE, nothing in FAULT (rules R254, R291). -/
theorem runEdges_commandLevelStep (i : Instr) {s : State} (hs : s.st = .idle ∨ s.st = .fault) {ps : List Pins}
    (hps : CommandSteps ps) : runEdges (presentPins i :: ps) s = .next (commandLevelStep s i) := by
  rcases hs with hidle | hfault
  · rw [runEdges_command i hidle hps, commandLevelStep, if_pos hidle]
  · have hreset : NoReset (presentPins i :: ps) := List.forall_mem_cons.mpr ⟨rfl, hps.2⟩
    rw [runEdges_of_fault hfault hreset, commandLevelStep, if_neg (by simp [hfault])]

/-- A command's whole effect leaves the engine at rest: done in IDLE, or in FAULT (rule R254). -/
theorem commandEffect_at_rest (i : Instr) (s : State) : (commandEffect i s).st = .idle ∨ (commandEffect i s).st = .fault := by
  cases i with
  | ldkey K => exact .inl rfl
  | enc b | dec b =>
    rw [commandEffect]
    split_ifs
    · exact .inl rfl
    · exact .inr rfl

/-- The command-level machine stays at rest (rule R254). -/
theorem commandLevelStep_at_rest (i : Instr) {s : State} (hs : s.st = .idle ∨ s.st = .fault) :
    (commandLevelStep s i).st = .idle ∨ (commandLevelStep s i).st = .fault := by
  rw [commandLevelStep]
  split_ifs
  · exact commandEffect_at_rest i s
  · exact hs

/-- Settles O34: command by command, each ending at rest. -/
theorem edgesRefineCommandLevel : Obligations.EdgesRefineCommandLevel := by
  intro cmds
  induction cmds with
  | nil => exact fun s _ _ => runEdges_nil s
  | cons c cmds ih =>
    intro s hs hsteps
    obtain ⟨hc, hcmds⟩ := List.forall_mem_cons.mp hsteps
    rw [List.flatMap_cons, runEdges_append (runEdges_commandLevelStep c.1 hs hc),
      ih _ (commandLevelStep_at_rest c.1 hs) hcmds]
    rfl

/-- What the ports show after a completed ENC or DEC under a key and without a fault code (rules R42, R43). -/
theorem outputs_cryptBlock (dir : Bool) (b : Block) {s : State} (hkey : s.keyValid = true) (herr : s.err = 0b00#2) :
    (cryptBlock dir b s).outputs = { cmdReady := true, dout := crypt s.sk b dir, status := 0x06#8 } := by
  have hstatus : (cryptBlock dir b s).status = 0x06#8 := by
    simp only [State.status, State.faulted, State.busy, cryptBlock_st, cryptBlock_err, cryptBlock_doutValid,
      cryptBlock_keyValid, hkey, herr]
    rfl
  rw [State.outputs, hstatus]
  rfl

/-- Settles O33: the reset, LDKEY and ENC end in a keyed IDLE state, from which DEC undoes ENC. -/
theorem resetLoadEncDecReturnsTheBlock : Obligations.ResetLoadEncDecReturnsTheBlock := by
  intro s p K b ps₁ ps₂ ps₃ hp hps₁ hps₂ hps₃
  have hreset : runEdges [p] s = .next (resetEdge s) := by
    rw [runEdges_cons, edgeNext_of (edge_of_reset s hp), runEdges_nil]
  have hload : runEdges ([p] ++ presentPins (.ldkey K) :: ps₁) s = .next (loadKey K (resetEdge s)) := by
    rw [runEdges_append hreset]
    exact runEdges_command (.ldkey K) rfl hps₁
  have henc : runEdges ([p] ++ presentPins (.ldkey K) :: ps₁ ++ presentPins (.enc b) :: ps₂) s =
      .next (cryptBlock false b (loadKey K (resetEdge s))) := by
    rw [runEdges_append hload]
    exact runEdges_cipher false b rfl rfl hps₂
  refine ⟨_, _, henc, outputs_cryptBlock false b rfl rfl, runEdges_cipher true _ rfl rfl hps₃, ?_⟩
  rw [outputs_cryptBlock true _ rfl rfl]
  exact congrArg (Outputs.mk true · 0x06#8) (crypt_crypt (keySchedule K) false b)

/-- While a command's steps are not all done the engine is busy and not ready; then it is ready (rules R42, R43). -/
theorem cmdReady_busy_of_steps {u : State} {n : Nat} {st : Fsm} (hst : st = .ks ∨ st = .run)
    (h : u.st = if n < 16 then st else .idle) :
    (n < 16 → u.cmdReady = false ∧ u.busy = true) ∧ (n = 16 → u.cmdReady = true ∧ u.busy = false) := by
  refine ⟨fun hn => ?_, fun hn => ?_⟩
  · rw [if_pos hn] at h
    rcases hst with rfl | rfl <;> simp [State.cmdReady, State.busy, h]
  · rw [if_neg (by omega)] at h
    simp [State.cmdReady, State.busy, h]

/-- Under a key ENC and DEC are in RUN until the sixteenth edge after their acceptance (rules R245, R255). -/
theorem runEdges_acceptCipher_fsm (dir : Bool) (b : Block) {s : State} (hkey : s.keyValid = true) {ps : List Pins}
    (hps : NoReset ps) (hlen : ps.length ≤ 16) :
    ∃ u, runEdges ps (acceptCipher dir b s) = .next u ∧ u.st = if ps.length < 16 then .run else .idle := by
  obtain ⟨u, hrun, hu⟩ := runAfter_edges ps hps (runAfter_accept dir b s) (by omega)
  rw [Nat.zero_add] at hu
  exact ⟨u, by rw [acceptCipher_keyed dir b hkey, hrun], hu.fsm⟩

/-- Settles O51: after `n` edges LDKEY is in KS, ENC and DEC are in RUN, until the sixteenth brings IDLE. -/
theorem commandTakesSeventeenEdges : Obligations.CommandTakesSeventeenEdges := by
  intro i s ps hs hkey hps hlen
  rw [runEdges_cons, edgeNext_presentPins i hs]
  cases i with
  | ldkey K =>
    obtain ⟨u, hrun, hu⟩ := ksAfter_edges ps hps (ksAfter_accept K s) (by omega)
    rw [Nat.zero_add] at hu
    exact ⟨u, hrun, cmdReady_busy_of_steps (.inl rfl) hu.fsm⟩
  | enc b =>
    obtain ⟨u, hrun, hu⟩ := runEdges_acceptCipher_fsm false b (hkey b (.inl rfl)) hps hlen
    exact ⟨u, hrun, cmdReady_busy_of_steps (.inr rfl) hu⟩
  | dec b =>
    obtain ⟨u, hrun, hu⟩ := runEdges_acceptCipher_fsm true b (hkey b (.inr rfl)) hps hlen
    exact ⟨u, hrun, cmdReady_busy_of_steps (.inr rfl) hu⟩

end Sys2Proof.Machine
end

section
/-! PROOFS. What STATUS and `cmd_ready` show in every state, after a reset, and in a state with the invariant (10_state.md section
2; 70_reset_and_hazards.md section 1; 95_test_vectors.md section 3.6). -/

namespace Sys2Proof.Machine

/-- STATUS bit 1 is KEY_VALID (rule R42). -/
theorem status_getLsbD_one (s : State) : s.status.getLsbD 1 = s.keyValid := by
  simp only [State.status, BitVec.getLsbD_append, BitVec.getLsbD_ofBool]
  rfl

/-- STATUS bit 2 is DOUT_VALID (rule R42). -/
theorem status_getLsbD_two (s : State) : s.status.getLsbD 2 = s.doutValid := by
  simp only [State.status, BitVec.getLsbD_append, BitVec.getLsbD_ofBool]
  rfl

/-- STATUS bits 7:6 are reserved as 0 (rule R42). -/
theorem status_extractLsb'_reserved (s : State) : s.status.extractLsb' 6 2 = 0 := by
  unfold State.status
  simp (disch := decide) only [BitVec.extractLsb'_append_eq_of_le]
  rfl

/-- BUSY is 1 in KS and in RUN (rule R42). -/
theorem busy_iff (s : State) : s.busy = true ↔ s.st = .ks ∨ s.st = .run := by
  rw [State.busy, Bool.or_eq_true, beq_iff_eq, beq_iff_eq]

/-- FAULT is 1 in FAULT alone (rule R42). -/
theorem faulted_iff (s : State) : s.faulted = true ↔ s.st = .fault := by
  rw [State.faulted, beq_iff_eq]

/-- The engine is ready exactly when it is neither busy nor faulted (rules R42, R43). -/
theorem cmdReady_iff_not_busy_not_faulted (s : State) : s.cmdReady = true ↔ s.busy = false ∧ s.faulted = false := by
  rw [State.cmdReady, State.busy, State.faulted]
  cases s.st <;> decide

/-- Settles O43: field by field, and `cmd_ready` from BUSY and FAULT. -/
theorem statusFieldsShowRegisters : Obligations.StatusFieldsShowRegisters := by
  intro s
  rw [status_getLsbD_zero, status_getLsbD_three]
  exact ⟨busy_iff s, status_getLsbD_one s, status_getLsbD_two s, faulted_iff s, status_extractLsb'_err s,
    status_extractLsb'_reserved s, cmdReady_iff_idle s, cmdReady_iff_not_busy_not_faulted s⟩

/-- What the host sees after a reset edge, from any state (rule R321). -/
theorem resetEdge_outputs (s : State) : (resetEdge s).outputs = { cmdReady := true, dout := 0, status := 0x00#8 } := by
  have hstatus : (resetEdge s).status = 0x00#8 := by
    simp only [State.status, State.faulted, State.busy, resetEdge_st, resetEdge_err, resetEdge_doutValid,
      resetEdge_keyValid]
    rfl
  rw [State.outputs, hstatus]
  rfl

/-- Settles O40: the model's reset state is its own image under a reset edge, so both clauses are `resetEdge_outputs`. -/
theorem outputsAfterReset : Obligations.OutputsAfterReset :=
  ⟨resetEdge_reset ▸ resetEdge_outputs State.reset, fun _ s hp => ⟨_, edge_of_reset s hp, resetEdge_outputs s⟩⟩

/-- Under the invariant FAULT is 1 exactly when ERR holds a fault code (rules R41, R42). -/
theorem fault_iff_err {s : State} (h : Inv s) : s.st = .fault ↔ s.err = 0b01#2 ∨ s.err = 0b10#2 := by
  refine ⟨h.faultCode, fun hcode => ?_⟩
  by_contra hne
  rw [h.noFaultCode hne] at hcode
  exact absurd hcode (by decide)

/-- Under the invariant STATUS is one of the ten values: the invariant leaves at most four in each FSM state. -/
theorem status_mem_reachableStatus {s : State} (h : Inv s) : s.status ∈ reachableStatus := by
  have hstale := h.noStaleResult
  rw [State.status, State.faulted, State.busy]
  cases hst : s.st with
  | idle =>
    rw [h.noFaultCode (by simp [hst])]
    cases hkey : s.keyValid with
    | true => cases s.doutValid <;> decide
    | false => rw [hstale hkey (by simp [hst])]; decide
  | ks =>
    rw [h.noFaultCode (by simp [hst]), (h.keyScheduling hst).1]
    cases s.doutValid <;> decide
  | run =>
    rw [h.noFaultCode (by simp [hst]), (h.running hst).1, (h.running hst).2]
    decide
  | fault =>
    cases hkey : s.keyValid with
    | true =>
      have herr : s.err = 0b01#2 := (h.faultCode hst).resolve_right fun hno =>
        nomatch hkey.symm.trans (h.noKeyMeansNoKey hno)
      rw [herr]
      cases s.doutValid <;> decide
    | false =>
      rw [hstale hkey (by simp [hst])]
      rcases h.faultCode hst with herr | herr <;> rw [herr] <;> decide

/-- Settles O46: the ten values, BUSY and FAULT from different FSM states, FAULT from ERR. -/
theorem statusTakesTenValues : Obligations.StatusTakesTenValues := by
  intro s h
  rw [status_getLsbD_zero, status_getLsbD_three, busy_iff, faulted_iff]
  refine ⟨status_mem_reachableStatus h, ?_, fault_iff_err h⟩
  rintro ⟨hbusy, hfault⟩
  simp [hfault] at hbusy

end Sys2Proof.Machine
end

section
/-! PROOFS. Acceptance, the two causes of a fault and the writers of each register, all read off the rows of the FSM table
(30_encoding.md rule R101; 44_feistel_driver.md rule R240; 60_exceptions.md rule R288; 10_state.md section 1). -/

namespace Sys2Proof.Machine

/-- Settles O38: a step answers the edge the host drives. -/
theorem everyStepAnswersNext : Obligations.EveryStepAnswersNext := fun s => ⟨_, step_eq s⟩

/-- Acceptance is the handshake (rule R101). -/
theorem accepts_iff (p : Pins) (s : State) : accepts p s = true ↔ p.rst = false ∧ p.cmdValid = true ∧ s.st = .idle := by
  rw [accepts, Bool.and_eq_true, Bool.and_eq_true, Bool.not_eq_true', cmdReady_iff_idle, and_assoc]

/-- At an edge that accepts nothing the command inputs do not matter (rule R101). -/
theorem edge_congr_of_not_accepts {p q : Pins} {s : State} (hp : accepts p s = false) (hq : accepts q s = false)
    (hrst : p.rst = q.rst) : edge p s = edge q s := by
  simp only [edge, hp, hq, hrst, Bool.false_eq_true, if_false]

/-- Settles O49: the handshake, the accepting edge, the ignored inputs, and `exec` outside IDLE. -/
theorem acceptanceIsTheHandshake : Obligations.AcceptanceIsTheHandshake := by
  intro p s
  refine ⟨accepts_iff p s, fun hacc i hd => ?_, fun q hp hq hrst => edge_congr_of_not_accepts hp hq hrst, fun i hready => ?_⟩
  · obtain ⟨hrst, hvalid, hs⟩ := (accepts_iff p s).mp hacc
    rw [edge_of_command hrst hvalid hs hd, exec_of_idle i hs]
  · have hs : s.st ≠ .idle := fun hidle => by simp [cmdReady_of_idle hidle] at hready
    rw [exec_eq, whenReady_not_idle _ hs]

/-- A word that does not decode is none of the table's (rules R104, R105). -/
theorem not_mem_words_of_decode_eq_error {w : CmdWord} {d : Block} {e : Illegal} (h : decode w d = .error e) :
    w ∉ [0x01#8, 0x02#8, 0x03#8] := by
  obtain ⟨hldkey, henc, hdec, -⟩ := decodeClassifiesEveryWord w d
  intro hmem
  simp only [List.mem_cons, List.not_mem_nil, or_false] at hmem
  rcases hmem with hw | hw | hw
  · cases h.symm.trans (hldkey hw)
  · cases h.symm.trans (henc hw)
  · cases h.symm.trans (hdec hw)

/-- A command is LDKEY, with its word, or one of ENC and DEC, with theirs (rules R102 to R104). -/
theorem decode_eq_ok_cases {w : CmdWord} {d : Block} {i : Instr} (h : decode w d = .ok i) :
    (i = .ldkey d ∧ w = 0x01#8) ∨ ∃ dir : Bool, i = (if dir then .dec d else .enc d) ∧ (w = 0x02#8 ∨ w = 0x03#8) := by
  have hcode := encode_eq_of_decode_eq_ok h
  cases i <;> cases hcode
  · exact .inl ⟨rfl, rfl⟩
  · exact .inr ⟨false, rfl, .inl rfl⟩
  · exact .inr ⟨true, rfl, .inr rfl⟩

/-- Settles O37: row by row, FAULT is entered by an illegal word and by ENC or DEC without a key, and by no other row. -/
theorem onlyTwoCausesOfFault : Obligations.OnlyTwoCausesOfFault := by
  intro p s t hedge hs ht
  cases hedge.symm.trans (edge_eq p s)
  rcases edge_cases p s with ⟨-, he⟩ | ⟨-, -, -, he⟩ | ⟨hrst, hvalid, hidle, ⟨e, hd⟩, he⟩ | ⟨hrst, hvalid, hidle, i, hd, he⟩ |
    ⟨-, hks, he⟩ | ⟨-, hrun, he⟩ | ⟨-, hfault, -⟩
  · rw [edgeNext_of he] at ht
    nomatch ht
  · rw [edgeNext_of he] at ht
    exact absurd ht hs
  · exact ⟨hidle, hrst, hvalid, .inl ⟨not_mem_words_of_decode_eq_error hd, edgeNext_of he⟩⟩
  · rw [edgeNext_of he] at ht ⊢
    obtain ⟨rfl, -⟩ | ⟨dir, rfl, hword⟩ := decode_eq_ok_cases hd
    · nomatch ht
    · rw [acceptInstr_cipher] at ht ⊢
      by_cases hkey : s.keyValid = true
      · rw [acceptCipher_keyed dir _ hkey] at ht
        nomatch ht
      · have hno : s.keyValid = false := Bool.eq_false_iff.mpr hkey
        exact ⟨hidle, hrst, hvalid, .inr ⟨hword, hno, acceptCipher_unkeyed dir _ hno⟩⟩
  · rw [edgeNext_of he, ksStep_st, hks] at ht
    split_ifs at ht
  · rw [edgeNext_of he, runStep_st, hrun] at ht
    split_ifs at ht
  · exact absurd hfault hs

/-- Settles O47: row by row, each register that is not written keeps its value, and each that is has its writer. -/
theorem eachRegisterHasItsWriters : Obligations.EachRegisterHasItsWriters := by
  intro p s t hp hedge
  cases hedge.symm.trans (edge_eq p s)
  have hacc : p.cmdValid = true → s.st = .idle → accepts p s = true := fun hvalid hs =>
    (accepts_iff p s).mpr ⟨hp, hvalid, hs⟩
  rcases edge_cases p s with ⟨hrst, -⟩ | ⟨-, -, -, he⟩ | ⟨-, hvalid, hs, -, he⟩ | ⟨-, hvalid, hs, i, hd, he⟩ | ⟨-, hs, he⟩ |
    ⟨-, hs, he⟩ | ⟨-, -, he⟩
  · exact nomatch hp.symm.trans hrst
  all_goals rw [edgeNext_of he]
  · simp
  · simp [hacc hvalid hs]
  · obtain ⟨rfl, hword⟩ | ⟨dir, rfl, hword⟩ := decode_eq_ok_cases hd
    · simp [acceptInstr, hacc hvalid hs, hword]
    · rw [acceptInstr_cipher]
      cases hkey : s.keyValid with
      | true => simp [acceptCipher_keyed dir _ hkey, hacc hvalid hs, hword, hkey]
      | false => simp [acceptCipher_unkeyed dir _ hkey, hacc hvalid hs, hkey]
  · by_cases hlast : s.rnd = 15#4
    · simp [hs, hlast, readSubkey_writeSubkey]
    · simp [hs, hlast, readSubkey_writeSubkey]
  · by_cases hlast : s.rnd = 15#4
    · simp [hs, hlast]
    · simp [hs, hlast]
  · simp

end Sys2Proof.Machine
end

section
/-! PROOFS. What the ports can tell of the registers behind them: nothing before a result is delivered, and never anything of a
register a reset leaves as it was (10_state.md section 4; 70_reset_and_hazards.md section 3; 93_implementation_defined.md
U1). -/

namespace Sys2Proof.Machine

/-- Two engines in the same FSM state and round that show the same at the ports, register by register. -/
structure ShowSame (s t : State) : Prop where
  /-- `st`. -/
  fsm : s.st = t.st
  /-- `rnd`. -/
  round : s.rnd = t.rnd
  /-- `KEY_VALID`. -/
  keyValid : s.keyValid = t.keyValid
  /-- `DOUT`. -/
  dout : s.dout = t.dout
  /-- `DOUT_VALID`. -/
  doutValid : s.doutValid = t.doutValid
  /-- `ERR`. -/
  err : s.err = t.err

/-- The ports show `DOUT` and, in STATUS, the flags and ERR (rules R39, R42). -/
theorem showSame_of_outputs_eq {s t : State} (h : s.outputs = t.outputs) (hst : s.st = t.st) (hrnd : s.rnd = t.rnd) :
    ShowSame s t := by
  have hstatus : s.status = t.status := congrArg Outputs.status h
  refine ⟨hst, hrnd, ?_, congrArg Outputs.dout h, ?_, ?_⟩
  · rw [← status_getLsbD_one, hstatus, status_getLsbD_one]
  · rw [← status_getLsbD_two, hstatus, status_getLsbD_two]
  · rw [← status_extractLsb'_err, hstatus, status_extractLsb'_err]

/-- The ports are a function of the registers compared (rules R39, R42, R43). -/
theorem ShowSame.outputs_eq {s t : State} (h : ShowSame s t) : s.outputs = t.outputs := by
  simp only [State.outputs, State.cmdReady, State.status, State.faulted, State.busy, h.fsm, h.keyValid, h.dout, h.doutValid,
    h.err]

/-- ENC and DEC are accepted alike by two engines that show the same (rules R244, R284). -/
theorem showSame_acceptCipher (dir : Bool) (b : Block) {s t : State} (h : ShowSame s t) :
    ShowSame (acceptCipher dir b s) (acceptCipher dir b t) := by
  cases hkey : s.keyValid with
  | true =>
    rw [acceptCipher_keyed dir b hkey, acceptCipher_keyed dir b (h.keyValid ▸ hkey)]
    exact ⟨rfl, rfl, h.keyValid, h.dout, rfl, h.err⟩
  | false =>
    rw [acceptCipher_unkeyed dir b hkey, acceptCipher_unkeyed dir b (h.keyValid ▸ hkey)]
    exact ⟨rfl, h.round, h.keyValid, h.dout, h.doutValid, rfl⟩

/-- Two engines that show the same accept a command alike (rules R182, R244, R284). -/
theorem showSame_acceptInstr (i : Instr) {s t : State} (h : ShowSame s t) : ShowSame (acceptInstr i s) (acceptInstr i t) := by
  cases i with
  | ldkey K => exact ⟨rfl, rfl, rfl, h.dout, h.doutValid, h.err⟩
  | enc b => exact showSame_acceptCipher false b h
  | dec b => exact showSame_acceptCipher true b h

/-- The KS step shows nothing of the key (rule R185). -/
theorem showSame_ksStep {s t : State} (h : ShowSame s t) : ShowSame (ksStep s) (ksStep t) := by
  refine ⟨?_, ?_, ?_, h.dout, h.doutValid, h.err⟩
  · rw [ksStep_st, ksStep_st, h.round, h.fsm]
  · rw [ksStep_rnd, ksStep_rnd, h.round]
  · rw [ksStep_keyValid, ksStep_keyValid, h.round, h.keyValid]

/-- The RUN step shows nothing but the result it delivers (rule R245). -/
theorem showSame_runStep {s t : State} (h : ShowSame s t) (hresult : s.rnd = 15 → (runStep s).dout = (runStep t).dout) :
    ShowSame (runStep s) (runStep t) := by
  refine ⟨?_, ?_, h.keyValid, ?_, ?_, h.err⟩
  · rw [runStep_st, runStep_st, h.round, h.fsm]
  · rw [runStep_rnd, runStep_rnd, h.round]
  · by_cases hlast : s.rnd = 15
    · exact hresult hlast
    · rw [runStep_dout, runStep_dout, if_neg hlast, if_neg (h.round ▸ hlast), h.dout]
  · rw [runStep_doutValid, runStep_doutValid, h.round, h.doutValid]

/-- Two engines in the same FSM state take the same row of the FSM table (rule R240). -/
theorem edgeNext_cases_of_fsm_eq (p : Pins) {s t : State} (hfsm : s.st = t.st) :
    (edgeNext p s = resetEdge s ∧ edgeNext p t = resetEdge t) ∨
    (edgeNext p s = s ∧ edgeNext p t = t) ∨
    (edgeNext p s = raiseFault .illegalCmd s ∧ edgeNext p t = raiseFault .illegalCmd t) ∨
    (∃ i, edgeNext p s = acceptInstr i s ∧ edgeNext p t = acceptInstr i t) ∨
    (s.st = .ks ∧ edgeNext p s = ksStep s ∧ edgeNext p t = ksStep t) ∨
    (s.st = .run ∧ edgeNext p s = runStep s ∧ edgeNext p t = runStep t) := by
  rcases edge_cases p s with ⟨hp, he⟩ | ⟨hp, hv, hs, he⟩ | ⟨hp, hv, hs, ⟨e, hd⟩, he⟩ | ⟨hp, hv, hs, i, hd, he⟩ | ⟨hp, hs, he⟩ |
    ⟨hp, hs, he⟩ | ⟨hp, hs, he⟩
  · exact .inl ⟨edgeNext_of he, edgeNext_of (edge_of_reset t hp)⟩
  · exact .inr (.inl ⟨edgeNext_of he, edgeNext_of (edge_of_no_command hp hv (hfsm ▸ hs))⟩)
  · exact .inr (.inr (.inl ⟨edgeNext_of he, edgeNext_of (edge_of_illegal hp hv (hfsm ▸ hs) hd)⟩))
  · exact .inr (.inr (.inr (.inl ⟨i, edgeNext_of he, edgeNext_of (edge_of_command hp hv (hfsm ▸ hs) hd)⟩)))
  · exact .inr (.inr (.inr (.inr (.inl ⟨hs, edgeNext_of he, edgeNext_of (edge_of_ks hp (hfsm ▸ hs))⟩))))
  · exact .inr (.inr (.inr (.inr (.inr ⟨hs, edgeNext_of he, edgeNext_of (edge_of_run hp (hfsm ▸ hs))⟩))))
  · exact .inr (.inl ⟨edgeNext_of he, edgeNext_of (edge_of_fault hp (hfsm ▸ hs))⟩)

/-- Two engines that show the same go on to do so at every edge, if a result delivered there is the same. -/
theorem showSame_edgeNext (p : Pins) {s t : State} (h : ShowSame s t)
    (hresult : s.st = .run → s.rnd = 15 → (runStep s).dout = (runStep t).dout) :
    ShowSame (edgeNext p s) (edgeNext p t) := by
  rcases edgeNext_cases_of_fsm_eq p h.fsm with ⟨hs, ht⟩ | ⟨hs, ht⟩ | ⟨hs, ht⟩ | ⟨i, hs, ht⟩ | ⟨-, hs, ht⟩ | ⟨hrun, hs, ht⟩ <;>
    rw [hs, ht]
  · exact ⟨rfl, rfl, rfl, rfl, rfl, rfl⟩
  · exact h
  · exact ⟨rfl, h.round, h.keyValid, h.dout, h.doutValid, rfl⟩
  · exact showSame_acceptInstr i h
  · exact showSame_ksStep h
  · exact showSame_runStep h (hresult hrun)

/-- Settles O48: no result is delivered at the edge, so `showSame_edgeNext` asks nothing of the hidden registers. -/
theorem hiddenRegistersStayHidden : Obligations.HiddenRegistersStayHidden := by
  intro p s t hout hst hrnd hlast
  have h := showSame_edgeNext p (showSame_of_outputs_eq hout hst hrnd) fun hs hr => absurd ⟨hs, hr⟩ hlast
  exact ⟨_, _, edge_eq p s, edge_eq p t, h.outputs_eq, h.fsm, h.round⟩

/-- Two engines agree on what later results are taken from: the direction, the key where one is in use, and the half states of
a running block. What else they hold may differ. -/
structure AgreeHidden (s t : State) : Prop where
  /-- `dir`. -/
  dir : s.dir = t.dir
  /-- `KEY`, with a cipher made from it or being made. -/
  key : s.keyValid = true ∨ s.st = .ks → s.key = t.key
  /-- `L` and `R`, while a block is running. -/
  halves : s.st = .run → s.l = t.l ∧ s.r = t.r

/-- Two engines with the invariant that show the same and will deliver the same results. -/
structure DeliverSame (s t : State) : Prop where
  /-- The first engine's invariant. -/
  invLeft : Inv s
  /-- The second engine's invariant. -/
  invRight : Inv t
  /-- The ports show the same. -/
  shown : ShowSame s t
  /-- So will the results. -/
  hidden : AgreeHidden s t

/-- Reset engines agree on `dir`, and neither has a key or a block (rule R320). -/
theorem agreeHidden_resetEdge (s t : State) : AgreeHidden (resetEdge s) (resetEdge t) where
  dir := rfl
  key h := by simp at h
  halves h := nomatch h

/-- Reset engines deliver the same, whatever they held before (rule R320). -/
theorem deliverSame_resetEdge (s t : State) : DeliverSame (resetEdge s) (resetEdge t) where
  invLeft := inv_resetEdge s
  invRight := inv_resetEdge t
  shown := ⟨rfl, rfl, rfl, rfl, rfl, rfl⟩
  hidden := agreeHidden_resetEdge s t

/-- Under the invariant the subkeys in use are those of the key (rule R49). -/
theorem DeliverSame.sk_eq {s t : State} (h : DeliverSame s t) (hkey : s.keyValid = true) : s.sk = t.sk := by
  have hkey' : t.keyValid = true := h.shown.keyValid ▸ hkey
  rw [(h.invLeft.keyed hkey).subkeys, (h.invRight.keyed hkey').subkeys, h.hidden.key (.inl hkey)]

/-- A RUN step takes engines that deliver the same through the same round (rule R245). -/
theorem DeliverSame.feistelRound_eq {s t : State} (h : DeliverSame s t) (hs : s.st = .run) :
    feistelRound (readSubkey s.sk (subkeyIndex s.dir s.rnd)) (s.l, s.r) =
      feistelRound (readSubkey t.sk (subkeyIndex t.dir t.rnd)) (t.l, t.r) := by
  obtain ⟨hl, hr⟩ := h.hidden.halves hs
  rw [h.sk_eq (h.invLeft.running hs).1, h.hidden.dir, h.shown.round, hl, hr]

/-- The result the last RUN step delivers is the same (rule R246). -/
theorem DeliverSame.runStep_dout_eq {s t : State} (h : DeliverSame s t) (hs : s.st = .run) :
    (runStep s).dout = (runStep t).dout := by
  rw [runStep_dout, runStep_dout, h.feistelRound_eq hs, h.shown.round, h.shown.dout]

/-- A fault leaves the key as it was and no block running (rule R281). -/
theorem agreeHidden_raiseFault (code : FaultCode) {s t : State} (h : AgreeHidden s t) :
    AgreeHidden (raiseFault code s) (raiseFault code t) where
  dir := h.dir
  key hkey := h.key (.inl (by simpa using hkey))
  halves hrun := nomatch hrun

/-- ENC and DEC start both engines from the same halves, or from none (rules R244, R284). -/
theorem agreeHidden_acceptCipher (dir : Bool) (b : Block) {s t : State} (h : DeliverSame s t) :
    AgreeHidden (acceptCipher dir b s) (acceptCipher dir b t) := by
  cases hkey : s.keyValid with
  | true =>
    rw [acceptCipher_keyed dir b hkey, acceptCipher_keyed dir b (h.shown.keyValid ▸ hkey)]
    exact ⟨rfl, fun _ => h.hidden.key (.inl hkey), fun _ => ⟨rfl, rfl⟩⟩
  | false =>
    rw [acceptCipher_unkeyed dir b hkey, acceptCipher_unkeyed dir b (h.shown.keyValid ▸ hkey)]
    exact agreeHidden_raiseFault .noKey h.hidden

/-- A command gives both engines its own key or its own block (rules R182, R244). -/
theorem agreeHidden_acceptInstr (i : Instr) {s t : State} (h : DeliverSame s t) :
    AgreeHidden (acceptInstr i s) (acceptInstr i t) := by
  cases i with
  | ldkey K => exact ⟨h.hidden.dir, fun _ => rfl, fun hrun => nomatch hrun⟩
  | enc b => exact agreeHidden_acceptCipher false b h
  | dec b => exact agreeHidden_acceptCipher true b h

/-- A KS step goes on with the same key (rule R185). -/
theorem agreeHidden_ksStep {s t : State} (h : DeliverSame s t) (hs : s.st = .ks) : AgreeHidden (ksStep s) (ksStep t) where
  dir := h.hidden.dir
  key _ := h.hidden.key (.inr hs)
  halves hrun := by
    rw [ksStep_st, hs] at hrun
    split_ifs at hrun

/-- A RUN step goes on with the same key and the same halves (rule R245). -/
theorem agreeHidden_runStep {s t : State} (h : DeliverSame s t) (hs : s.st = .run) : AgreeHidden (runStep s) (runStep t) where
  dir := h.hidden.dir
  key _ := h.hidden.key (.inl (h.invLeft.running hs).1)
  halves _ := ⟨(h.hidden.halves hs).2, congrArg Prod.snd (h.feistelRound_eq hs)⟩

/-- Every edge with the same inputs keeps the agreement: one case per row of the FSM table. -/
theorem agreeHidden_edgeNext (p : Pins) {s t : State} (h : DeliverSame s t) : AgreeHidden (edgeNext p s) (edgeNext p t) := by
  rcases edgeNext_cases_of_fsm_eq p h.shown.fsm with ⟨hs, ht⟩ | ⟨hs, ht⟩ | ⟨hs, ht⟩ | ⟨i, hs, ht⟩ | ⟨hks, hs, ht⟩ |
    ⟨hrun, hs, ht⟩ <;> rw [hs, ht]
  · exact agreeHidden_resetEdge s t
  · exact h.hidden
  · exact agreeHidden_raiseFault .illegalCmd h.hidden
  · exact agreeHidden_acceptInstr i h
  · exact agreeHidden_ksStep h hks
  · exact agreeHidden_runStep h hrun

/-- Engines that deliver the same go on doing so at every edge with the same inputs. -/
theorem deliverSame_edgeNext (p : Pins) {s t : State} (h : DeliverSame s t) : DeliverSame (edgeNext p s) (edgeNext p t) where
  invLeft := inv_edgeNext p h.invLeft
  invRight := inv_edgeNext p h.invRight
  shown := showSame_edgeNext p h.shown fun hs _ => h.runStep_dout_eq hs
  hidden := agreeHidden_edgeNext p h

/-- And through every run of edges with the same inputs. -/
theorem runEdges_deliverSame (ps : List Pins) {s t : State} (h : DeliverSame s t) :
    ∃ s' t', runEdges ps s = .next s' ∧ runEdges ps t = .next t' ∧ DeliverSame s' t' := by
  induction ps generalizing s t with
  | nil => exact ⟨s, t, rfl, rfl, h⟩
  | cons p ps ih =>
    rw [runEdges_cons, runEdges_cons]
    exact ih (deliverSame_edgeNext p h)

/-- Settles O42: two reset engines deliver the same, so they show the same at every later edge. -/
theorem outputsIgnoreUnresetRegisters : Obligations.OutputsIgnoreUnresetRegisters := by
  intro s t p ps hp
  rw [runEdges_cons, runEdges_cons, edgeNext_of (edge_of_reset s hp), edgeNext_of (edge_of_reset t hp)]
  obtain ⟨s', t', hs, ht, h⟩ := runEdges_deliverSame ps (deliverSame_resetEdge s t)
  exact ⟨s', t', hs, ht, h.shown.outputs_eq⟩

/-- What the ports show of NO_KEY raised right after a reset (rules R42, R282). -/
theorem outputs_noKey_of_reset (s : State) :
    (raiseFault .noKey (resetEdge s)).outputs = { cmdReady := false, dout := 0, status := 0x28#8 } := by
  have hstatus : (raiseFault .noKey (resetEdge s)).status = 0x28#8 := by
    simp only [State.status, State.faulted, State.busy, raiseFault_st, raiseFault_err, raiseFault_doutValid,
      raiseFault_keyValid, resetEdge_doutValid, resetEdge_keyValid]
    rfl
  rw [State.outputs, hstatus]
  rfl

/-- Settles O41: the run ends in a reset edge, after which ENC and DEC find no key. -/
theorem resetInsideCommandNeedsNewKey : Obligations.ResetInsideCommandNeedsNewKey := by
  intro s ps p i b hp hi
  have hcipher : ∃ dir : Bool, i = if dir then .dec b else .enc b := by
    rcases hi with rfl | rfl
    · exact ⟨false, rfl⟩
    · exact ⟨true, rfl⟩
  obtain ⟨dir, rfl⟩ := hcipher
  obtain ⟨u, hps⟩ : ∃ u, runEdges ps s = .next u := ⟨_, runEdges_eq ps s⟩
  have hreset : edgeNext p u = resetEdge u := edgeNext_of (edge_of_reset u hp)
  refine ⟨resetEdge u, raiseFault .noKey (resetEdge u), ?_, rfl, rfl, rfl, ?_, outputs_noKey_of_reset u⟩
  · rw [runEdges_append hps, runEdges_cons, hreset, runEdges_nil]
  · rw [runEdges_append hps, runEdges_cons, hreset, runEdges_cons, edgeNext_presentPins _ (resetEdge_st _), acceptInstr_cipher,
      acceptCipher_unkeyed dir b (resetEdge_keyValid _), runEdges_nil]

end Sys2Proof.Machine
end

section
/-! PROOFS. The step with each action of the host, and runs of steps (30_encoding.md rules R101, R107 and R108; 60_exceptions.md
rule R291; 70_reset_and_hazards.md rule R330). -/

namespace Sys2Proof.Machine

/-- An edge leaves the host's script as it was. -/
theorem edgeNext_script (p : Pins) (s : State) : (edgeNext p s).script = s.script := (edge_host_frame p s).1

/-- A step with an action other than READ next is the edge that action drives, and the script moved on (rule R108). -/
theorem step_of_action {s : State} {a : HostAction} {rest : List HostAction} (h : s.script = a :: rest) (hne : a ≠ .read) :
    step s = .next { edgeNext (hostPins (a :: rest)) s with
      script := scriptAfter (accepts (hostPins (a :: rest)) s) (edgeNext (hostPins (a :: rest)) s) (a :: rest) } := by
  rw [step_eq, doReads_of_not_read h hne, hostAdvance, edgeNext_script, h]

/-- A presented command is accepted exactly when the engine is in IDLE (rule R101). -/
theorem accepts_present (w : CmdWord) (d : Block) (s : State) : accepts (.present w d) s = true ↔ s.st = .idle := by
  simp [accepts_iff, Pins.present]

/-- A command line presents its word and operand, and is over at the edge that accepts it (rules R101, R108). -/
theorem step_of_command {s : State} {w : CmdWord} {d : Block} {rest : List HostAction} (h : s.script = .command w d :: rest) :
    step s = .next { edgeNext (.present w d) s with script := if s.st = .idle then rest else s.script } := by
  rw [step_of_action h (by simp), hostPins, scriptAfter]
  simp only [accepts_present, h]

/-- READs before an edge take none: each is one more sample (rule R108). -/
theorem doReads_of_read {s : State} {rest : List HostAction} (h : s.script = .read :: rest) :
    doReads s = doReads { s with script := rest, reads := s.reads ++ [s.outputs] } := by
  have hout : State.outputs { s with script := rest, reads := s.reads ++ [s.outputs] } = s.outputs := rfl
  simp only [doReads, h, leadingReads, dropReads, hout, List.replicate_succ, List.append_assoc, List.singleton_append]

/-- A WAIT is over when the engine is in IDLE or in FAULT (rule R108). -/
theorem waitDone_iff (s : State) : waitDone s = true ↔ s.st = .idle ∨ s.st = .fault := by
  rw [waitDone, Bool.or_eq_true, cmdReady_iff_idle, faulted_iff]

/-- In FAULT a command line changes nothing: the edge does nothing and the line stays (rule R291). -/
theorem step_of_command_in_fault {s : State} {w : CmdWord} {d : Block} {rest : List HostAction} (hs : s.st = .fault)
    (h : s.script = .command w d :: rest) : step s = .next s := by
  rw [step_of_command h, edgeNext_of (edge_of_fault rfl hs), if_neg (by simp [hs])]

/-- Settles O56: the actions of the lines are their definitions; each action's step is `step_of_action` with the script moved on
as that action says. -/
theorem hostActionsFollowTheScript : Obligations.HostActionsFollowTheScript := by
  refine ⟨fun d w => ⟨rfl, rfl, rfl, rfl, rfl, rfl, rfl⟩, fun _ _ => rfl, fun s rest => ⟨fun h => ?_, fun h => ?_, fun h => ?_,
    fun p h => ?_, fun w d h => ⟨fun hs => step_of_command_in_fault hs h, _, edge_eq _ s, step_of_command h⟩⟩⟩
  · rw [step_of_action h (by simp), hostPins, scriptAfter, edgeNext_of (edge_of_reset s rfl)]
  · refine ⟨_, edge_eq _ s, ?_⟩
    rw [step_of_action h (by simp), hostPins, scriptAfter]
    simp only [waitDone_iff, h]
  · rw [step_eq, step_eq, doReads_of_read h]
  · exact ⟨_, edge_eq p s, step_of_action h (by simp)⟩

/-- The command a table word decodes to is the one its word and operand present. -/
theorem decode_of_decodeTableWord {nbits w : Nat} {i : Instr} (h : decodeTableWord nbits w = some i) :
    decode (tableCmdWord nbits w) (tableOperand nbits w) = .ok i := by
  rw [decodeTableWord] at h
  split at h <;> cases h
  assumption

/-- A command line accepted in IDLE: the step is the acceptance action, and the line is done (rules R101, R108). -/
theorem step_of_accepted_command {s : State} {w : CmdWord} {d : Block} {rest : List HostAction} {i : Instr} (hs : s.st = .idle)
    (h : s.script = .command w d :: rest) (hd : decode w d = .ok i) :
    step s = .next { acceptInstr i s with script := rest } := by
  rw [step_of_command h, edgeNext_of (edge_of_command rfl rfl hs hd), if_pos hs]

/-- Settles O52: both clauses are an accepted command line; `withFetchWord` differs from the state it starts from in `st` and in
the script alone, which no acceptance action reads. -/
theorem stepRunsTheDecodedCommand : Obligations.StepRunsTheDecodedCommand := by
  refine ⟨fun s t w d rest i hs h hd hexec => ?_, fun s t nbits w i hd hexec => ?_⟩
  · cases hexec.symm.trans (exec_of_idle i hs)
    exact step_of_accepted_command hs h hd
  · cases hexec.symm.trans (exec_of_idle i (s := { s with st := .idle }) rfl)
    have hhost := acceptInstr_withHost i { s with st := .idle } (.command (tableCmdWord nbits w) (tableOperand nbits w) :: s.script)
      s.reads
    have hself := acceptInstr_withHost i { s with st := .idle } s.script s.reads
    have hstep := step_of_accepted_command (s := s.withFetchWord nbits w) rfl rfl (decode_of_decodeTableWord hd)
    rw [hstep, show acceptInstr i (s.withFetchWord nbits w) = _ from hhost]
    exact congrArg _ hself.symm

/-- Settles O53: each step is an edge and a change of the host's side, which the edges after it neither read nor write. -/
theorem stepsAreEdgesOfTheHost : Obligations.StepsAreEdgesOfTheHost := by
  intro n
  induction n with
  | zero => exact fun s => ⟨[], s, s, rfl, run_zero s, runEdges_nil s, rfl⟩
  | succ n ih =>
    intro s
    obtain ⟨p, sc, rd, hstep⟩ := step_eq_edge s
    obtain ⟨ps, t, u, hlen, hrun, hedges, ht⟩ := ih (withHost (edgeNext p s) sc rd)
    cases hedges.symm.trans (runEdges_withHost ps (edgeNext p s) sc rd)
    exact ⟨p :: ps, t, _, by rw [List.length_cons, hlen], by rw [run_succ hstep, hrun],
      (runEdges_cons p ps s).trans (runEdges_eq ps _), ht⟩

/-- A command line next while the engine is busy: the step is the engine's own, the last one brings IDLE, and the line stays
(rule R330). -/
theorem step_of_command_while_busy {s : State} {w : CmdWord} {d : Block} {rest : List HostAction}
    (hs : s.st = .ks ∨ s.st = .run) (h : s.script = .command w d :: rest) :
    ∃ t, step s = .next t ∧ t.script = s.script ∧ (s.rnd = 15 → t.st = .idle) ∧
      (s.rnd ≠ 15 → t.st = s.st ∧ t.rnd = s.rnd + 1) := by
  have hbusy : s.st ≠ .idle := by rcases hs with hs | hs <;> simp [hs]
  refine ⟨_, step_of_command h, if_neg hbusy, ?_⟩
  rcases hs with hs | hs
  · rw [edgeNext_of (edge_of_ks rfl hs)]
    exact ⟨fun hlast => if_pos hlast, fun hlast => ⟨if_neg hlast, if_neg hlast⟩⟩
  · rw [edgeNext_of (edge_of_run rfl hs)]
    exact ⟨fun hlast => if_pos hlast, fun hlast => ⟨if_neg hlast, if_neg hlast⟩⟩

/-- The steps left of a running command end in IDLE with the waiting line still there (rule R330). -/
theorem run_while_busy {n : Nat} {s : State} {w : CmdWord} {d : Block} {rest : List HostAction} (hs : s.st = .ks ∨ s.st = .run)
    (h : s.script = .command w d :: rest) (hn : s.rnd.toNat + n = 16) :
    ∃ t, Host.Core.run Sys2Proof.core n s = .next t ∧ t.st = .idle ∧ t.script = s.script := by
  induction n generalizing s with
  | zero =>
    have hrnd : s.rnd.toNat < 16 := s.rnd.isLt
    omega
  | succ n ih =>
    obtain ⟨t, hstep, hscript, hlast, hnext⟩ := step_of_command_while_busy hs h
    rw [run_succ hstep]
    by_cases hrnd : s.rnd = 15
    · have hcount : 15 + (n + 1) = 16 := by rwa [hrnd] at hn
      obtain rfl : n = 0 := by omega
      exact ⟨t, run_zero t, hlast hrnd, hscript⟩
    · obtain ⟨hst, hround⟩ := hnext hrnd
      have hcount : t.rnd.toNat + n = 16 := by rw [hround, round_succ hrnd]; omega
      obtain ⟨u, hrun, hidle, hsame⟩ := ih (hst ▸ hs) (hscript.trans h) hcount
      exact ⟨u, hrun, hidle, hsame.trans hscript⟩

/-- Settles O54: the remaining steps bring IDLE with the line next, and the next step accepts it. -/
theorem commandLineWaitsForReady : Obligations.CommandLineWaitsForReady := by
  intro s w d rest hs h
  have hrnd : s.rnd.toNat < 16 := s.rnd.isLt
  obtain ⟨t, hrun, hidle, hscript⟩ := run_while_busy hs h (n := 16 - s.rnd.toNat) (by omega)
  exact ⟨t, _, hrun, hidle, hscript, step_of_command (hscript.trans h), if_pos hidle⟩

/-- Settles O55: every step of the run leaves the state as it is. -/
theorem commandLineInFaultWaitsForever : Obligations.CommandLineInFaultWaitsForever := by
  intro n s w d rest hs h
  induction n with
  | zero => exact run_zero s
  | succ n ih => rw [run_succ (step_of_command_in_fault hs h), ih]

end Sys2Proof.Machine
end
